-- ==== Sys2Proof/Word.lean ====
section
/-! DEFINITION. The bit vectors the spec names: bytes, nibbles, request words, packet-length codes and response data
(00_scope.md R5, R6, R7). Every value of the block is unsigned. -/

namespace Sys2Proof

/-- An integer 0 to 255 (R7). -/
abbrev Byte := BitVec 8

/-- "a 4-bit half of a byte" (R7, R9). -/
abbrev Nibble := BitVec 4

/-- A request word `REQ` (R6 `REQ_WIDTH`, R45). -/
abbrev Word := BitVec 32

/-- A PacketLengthCode, and one entry of the table `T` (R5 `CODE_WIDTH`, `TABLE_ENTRY_WIDTH`). -/
abbrev Code := BitVec 16

/-- The `data` field of a response (R6 `RSP_DATA_WIDTH`, R46). -/
abbrev RspData := BitVec 48

/-- The `err` field of a response and the register `ERR` (R6 `RSP_ERR_WIDTH`, R17). -/
abbrev ErrCode := BitVec 4

end Sys2Proof
end

