-- ==== Sys2Proof/Config.lean ====
section
/-! DEFINITION. The constants the spec fixes (00_scope.md R5, R6) and the values it leaves open, which are opaque: nothing
in Lean can evaluate one or prove a value of one. -/

namespace Sys2Proof

/-- `CRC_POLYNOM` (R5). -/
def Config.crcPolynom : Byte := 0x8C

/-- `CRC_INITIAL` (R5). -/
def Config.crcInitial : Byte := 0x00

/-- `INDEX_MAX` (R5): the largest legal sequence index. -/
def Config.indexMax : Nat := 127

/-- `HEADER_CODES` (R5): totalLen, pwdLen, ssidCrc, bssidCrc, totalXor. -/
def Config.headerCodes : Nat := 5

/-- `IP_LEN` (R5). -/
def Config.ipLen : Nat := 4

/-- `BSSID_LEN` (R5). -/
def Config.bssidLen : Nat := 6

/-- `EXTRA_LEN` (R5): the bias added to every packet-length code. -/
def Config.extraLen : Nat := 40

/-- `CODE_CAP` (R6): entries of the code store. -/
def Config.codeCap : Nat := 384

/-- The most groups a Datum can have: indices 0 to `INDEX_MAX` (R98, R99). -/
def Config.groupsMax : Nat := Config.indexMax + 1

/-- `FILL` (R6, R120, R124): OPEN, "any fill byte is acceptable". A free value (log 7). -/
opaque Config.fill : Byte

/-- The unspecified byte at a `CRED` storage address, drawn at the reset of the given number and stable until written
(R22, R42, U1). A free value (log 1, log 4). -/
opaque Config.credAtReset (draw address : Nat) : Byte

/-- The unspecified entry of the code store at an index, drawn at the reset of the given number (R22, R34, U2). A free
value (log 3, log 4). -/
opaque Config.codeAtReset (draw index : Nat) : Code

end Sys2Proof
end

