-- ==== Sys2Proof/Machine/State.lean ====
section
/-! DEFINITION. The state of the block (10_state.md R10, R18, R19, R23), the response and the error names it needs, the
host's pending inputs, and the state after reset (R22). Plain data throughout. -/

namespace Sys2Proof.Machine

/-- A store of `w`-bit elements (20_memory.md R30): the elements written since reset, as (address, element) pairs with
addresses strictly rising. An address not listed has not been written since reset; what reading it gives is said once, by
`Memory.read` (log 2). -/
abbrev Memory (w : Nat) := List (Nat × BitVec w)

/-- The error names (60_exceptions.md R160). -/
inductive Error where
  /-- Code 1 (R161). -/
  | indexOutOfRange
  /-- Code 2 (R162): raised by the host's parser, never by the block. -/
  | malformedAddress
  /-- Code 3 (R163). -/
  | valueOutOfRange
  /-- Code 4 (R164). -/
  | illegalRequest
  /-- Code 5 (R165). -/
  | addressOutOfRange
  deriving DecidableEq, Repr

/-- The answer to one request (30_encoding.md R46). -/
structure Response where
  /-- 0 for success, or an error code. -/
  err : ErrCode
  /-- The result, all zeros whenever `err` is not 0. -/
  data : RspData
  deriving DecidableEq, Repr

/-- What the host does next (70_reset_and_hazards.md R186). -/
inductive HostInput where
  /-- The host presents a request word: any word at all, legal or not. -/
  | request (req : Word)
  /-- The host asserts reset and releases it (R180). Where reset comes in the middle of an operation, `abandoned` is the
  request whose operation is abandoned without a response (log 10). -/
  | reset (abandoned : Option Word)
  deriving DecidableEq, Repr

/-- The state of the block, with what its host has still to send and what an observer has seen since reset. -/
structure State where
  /-- `RUN` (R12): low byte of the CRC running value. -/
  run : Byte
  /-- `PWDLEN` (R13): number of password bytes. -/
  pwdlen : Byte
  /-- `SSIDLEN` (R14): number of SSID bytes. -/
  ssidlen : Byte
  /-- `HIDDEN` (R15): the hidden-SSID flag. -/
  hidden : BitVec 1
  /-- `NCODES` (R16): number of valid entries of the code store. -/
  ncodes : BitVec 9
  /-- `ERR` (R17): the latched error code; 0 means no fault. -/
  err : ErrCode
  /-- Storage of the space `CRED` (20_memory.md R32): BSSID, IP, PWD and SSID bytes written since reset. -/
  cred : List Host.Cell
  /-- The space `CODE` (20_memory.md R34): entries written since reset. -/
  code : Memory 16
  /-- `OUT` (R19): the datagrams emitted since reset, oldest first. -/
  out : List (List Byte)
  /-- The responses produced since reset, oldest first (30_encoding.md R46; log 6). The model's own field. -/
  rsps : List Response
  /-- What the host does next, oldest first (70_reset_and_hazards.md R186, R187; log 5). The model's own field. -/
  input : List HostInput
  /-- Which reset the unspecified bytes of `CRED` and `CODE` were drawn at (R22; log 4). The model's own field. -/
  draw : Nat
  deriving DecidableEq, Repr

/-- Reasons the model stops with a fault: there are none, so this type has no constructor. Every error of the spec is an
effect of the block (fault entry, 60_exceptions.md R166), which is a next state (log 8), and no meaning reads an element
that does not exist. -/
inductive Fault
  deriving DecidableEq, Repr

/-- Reasons the model refuses an operation. -/
inductive Refusal where
  /-- Raised by an arm of `exec` for an operation that has no meaning yet; no arm does. Safe. -/
  | notModelled (mnemonic : String)
  deriving DecidableEq, Repr

/-- The state when reset is released (R22): every register 0, nothing emitted, the bytes of `CRED` and `CODE` unspecified
(nothing listed). The model's own fields are empty and 0 (log 4, log 5, log 6). -/
def State.reset : State where
  run := 0
  pwdlen := 0
  ssidlen := 0
  hidden := 0
  ncodes := 0
  err := 0
  cred := []
  code := []
  out := []
  rsps := []
  input := []
  draw := 0

end Sys2Proof.Machine
end

