-- ==== Sys2Proof/Machine/Flags.lean ====
section
/-! DEFINITION. The block has no flags and no condition codes: "the only status a request produces is the `err` field of
its response" (10_state.md R21). This file holds that status: the error codes (60_exceptions.md R160) and the halted test
(R167). -/

namespace Sys2Proof.Machine

/-- The number of an error (R160). -/
def Error.code : Error → ErrCode
  | .indexOutOfRange => 1
  | .malformedAddress => 2
  | .valueOutOfRange => 3
  | .illegalRequest => 4
  | .addressOutOfRange => 5

/-- "While `ERR != 0` the block is halted" (R17, R167). -/
def State.halted (s : State) : Bool := s.err != 0

end Sys2Proof.Machine
end

