-- ==== Sys2Proof/Machine/Ops.lean ====
section
/-! DEFINITION. The operations every meaning is built from: access to a store (20_memory.md R36, R37), bit fields
(00_scope.md R7), the response (R46), fault entry and the halted answer (60_exceptions.md R166, R167), emission of a
datagram (R7, R19), and reset, the only way out of a fault (R168, 70_reset_and_hazards.md R180). -/

namespace Sys2Proof.Machine

/-- The element written at an address since reset, if any. -/
def Memory.find {w : Nat} : Memory w → Nat → Option (BitVec w)
  | [], _ => none
  | (k, e) :: rest, a => if k = a then some e else Memory.find rest a

/-- `MemRead` (R7): the element written last, or else the value the address has held since reset, which the spec leaves
unspecified (R22, R42). This is the one place that says what an unlisted address reads as. -/
def Memory.read {w : Nat} (atReset : Nat → BitVec w) (m : Memory w) (a : Nat) : BitVec w :=
  (Memory.find m a).getD (atReset a)

/-- `MemWrite` (R7): sets the element at one address and keeps the addresses strictly rising. -/
def Memory.write {w : Nat} : Memory w → Nat → BitVec w → Memory w
  | [], a, e => [(a, e)]
  | (k, old) :: rest, a, e =>
    if a < k then (a, e) :: (k, old) :: rest
    else if a = k then (a, e) :: rest
    else (k, old) :: Memory.write rest a e

/-- `MemWrite` of a list of elements at consecutive addresses from `a` up. -/
def Memory.writeList {w : Nat} : Memory w → Nat → List (BitVec w) → Memory w
  | m, _, [] => m
  | m, a, e :: rest => Memory.writeList (Memory.write m a e) (a + 1) rest

/-- The addresses of a store are strictly rising. -/
def Memory.rising {w : Nat} : Memory w → Bool
  | [] => true
  | (k, _) :: rest => rest.all (fun c => decide (k < c.1)) && Memory.rising rest

/-- The canonical form of a store whose elements stand at the addresses `inMap` accepts: addresses strictly rising, each
of them an address of the map (log 2). -/
def Memory.wf {w : Nat} (inMap : Nat → Bool) (m : Memory w) : Bool :=
  Memory.rising m && m.all (fun c => inMap c.1)

/-- The high nibble `b[7:4]` (R7). -/
def highNibble (b : Byte) : Nibble := b.extractLsb' 4 4

/-- The low nibble `b[3:0]` (R7). -/
def lowNibble (b : Byte) : Nibble := b.extractLsb' 0 4

/-- The byte `(high << 4) | low` (R80). -/
def joinNibbles (high low : Nibble) : Byte := high.setWidth 8 <<< 4 ||| low.setWidth 8

/-- `XOR(L)` (R7): the exclusive or of every element, 0 for the empty list. -/
def xorAll : List Byte → Byte
  | [] => 0
  | b :: rest => b ^^^ xorAll rest

/-- The byte of `CRED` storage at an address. -/
def State.credByte (s : State) (a : Nat) : Byte := Memory.read (Config.credAtReset s.draw) s.cred a

/-- The entry of the code store at an index. -/
def State.codeEntry (s : State) (k : Nat) : Code := Memory.read (Config.codeAtReset s.draw) s.code k

/-- `respond(data)` (R7): the operation ends successfully. -/
def State.respond (s : State) (data : RspData) : State :=
  { s with rsps := s.rsps ++ [{ err := 0, data := data }] }

/-- `raise E` (R7), the fault entry (R166): `ERR` and the response take the code, the response data is 0, and nothing else
changes. -/
def State.raise (s : State) (e : Error) : State :=
  { s with err := e.code, rsps := s.rsps ++ [{ err := e.code, data := 0 }] }

/-- The answer of a halted block (R167): the response carries `ERR`, data 0, and nothing is performed. -/
def State.respondHalted (s : State) : State :=
  { s with rsps := s.rsps ++ [{ err := s.err, data := 0 }] }

/-- `emit Datagram(L)` (R7): the datagram joins the output history. -/
def State.emit (s : State) (datagram : List Byte) : State :=
  { s with out := s.out ++ [datagram] }

/-- `RUN <- v`. -/
def State.setRun (s : State) (v : Byte) : State := { s with run := v }

/-- `PWDLEN <- v`. -/
def State.setPwdlen (s : State) (v : Byte) : State := { s with pwdlen := v }

/-- `SSIDLEN <- v`. -/
def State.setSsidlen (s : State) (v : Byte) : State := { s with ssidlen := v }

/-- `HIDDEN <- v`. -/
def State.setHidden (s : State) (v : BitVec 1) : State := { s with hidden := v }

/-- `MemWrite(CRED, a, b)`. -/
def State.writeCred (s : State) (a : Nat) (b : Byte) : State := { s with cred := Memory.write s.cred a b }

/-- `MemWrite(CODE, k, codes[k])` for every `k`, and `NCODES <- n` (R102). -/
def State.storeCodes (s : State) (codes : List Code) (n : BitVec 9) : State :=
  { s with code := Memory.writeList s.code 0 codes, ncodes := n }

/-- The state with what the host has still to send replaced (log 5). -/
def State.withInput (s : State) (rest : List HostInput) : State := { s with input := rest }

/-- One request answered: the halted test stands before everything else (R54 step 1, R169 step 1). -/
def answer (s : State) (operation : State → State) : State :=
  if s.halted then s.respondHalted else operation s

/-- An illegal request (R50, R164), after the halted test (R169). -/
def answerIllegal (s : State) : State := answer s (fun s => s.raise .illegalRequest)

/-- The state when reset is released (R180, R22), the only exit from the halted state (R168): unspecified bytes are drawn
anew, and what the host has still to send is the host's. -/
def State.afterReset (s : State) : State :=
  { State.reset with draw := s.draw + 1, input := s.input }

end Sys2Proof.Machine
end

