-- ==== Sys2Proof/Machine/Operands.lean ====
section
/-! DEFINITION. Operand forms. Every operand is a field of the request word (30_encoding.md R49), so the only operand that
needs a reading is a `CRED` address, by the map of 20_memory.md R32. -/

namespace Sys2Proof.Machine

/-- What stands at a `CRED` address (R32). -/
inductive CredPlace where
  /-- A BSSID, IP, PWD or SSID byte. -/
  | storage (address : Nat)
  /-- The register `PWDLEN`. -/
  | pwdlen
  /-- The register `SSIDLEN`. -/
  | ssidlen
  /-- The register `HIDDEN`. -/
  | hidden
  /-- Reserved: no storage exists there (R33). -/
  | reserved
  deriving DecidableEq, Repr

/-- The `CRED` addresses with a byte of storage: BSSID, IP, PWD, SSID (R32). -/
def isCredStorage (a : Nat) : Bool :=
  decide (a ≤ 0x005) || (decide (0x008 ≤ a) && decide (a ≤ 0x00B)) || (decide (0x100 ≤ a) && decide (a ≤ 0x2FF))

/-- The indices of the code store (R34). -/
def isCodeIndex (k : Nat) : Bool := decide (k < Config.codeCap)

/-- The map of the space `CRED` (R32). -/
def credPlace (a : BitVec 10) : CredPlace :=
  if isCredStorage a.toNat then .storage a.toNat
  else if a = 0x010 then .pwdlen
  else if a = 0x011 then .ssidlen
  else if a = 0x012 then .hidden
  else .reserved

/-- First address of the BSSID bytes (R32). -/
def bssidBase : Nat := 0x000

/-- First address of the IP bytes (R32). -/
def ipBase : Nat := 0x008

/-- First address of the password bytes (R32). -/
def pwdBase : Nat := 0x100

/-- First address of the SSID bytes (R32). -/
def ssidBase : Nat := 0x200

/-- `n` consecutive bytes of `CRED` storage from an address up. -/
def State.credBytes (s : State) (base n : Nat) : List Byte :=
  (List.range n).map (fun k => s.credByte (base + k))

end Sys2Proof.Machine
end

