-- ==== Sys2Proof/Machine/Crc.lean ====
section
/-! DEFINITION. The CRC engine (40_crc_engine.md): the table, the function `Crc8`, and `CRC.RST`, `CRC.UPD`, `CRC.GET`,
`CRC.LUT`. -/

namespace Sys2Proof.Machine

/-- One of the 8 steps of the table build (R60): note the low bit, shift right by one, XOR in `CRC_POLYNOM` if it was 1. -/
def crcTableStep (r : Code) : Code :=
  if r.getLsbD 0 then (r >>> 1) ^^^ Config.crcPolynom.setWidth 16 else r >>> 1

/-- `CrcTable(i)` (R60): the entry `T[i]`, 16 bits (R61). The table is a constant (R70). -/
def crcTable (i : Byte) : Code := Nat.repeat crcTableStep 8 (i.setWidth 16)

/-- One byte of the CRC (R64): `lo <- T[lo ^ b][7:0]`. -/
def crcStep (lo b : Byte) : Byte := (crcTable (lo ^^^ b)).setWidth 8

/-- `Crc8(L)` (R63) in the 8-bit form of R64. -/
def crc8 (bytes : List Byte) : Byte := bytes.foldl crcStep Config.crcInitial

/-- `CRC.RST` (R66). -/
def execCrcRst (s : State) : Host.Outcome State Fault Refusal :=
  .next (answer s fun s => (s.setRun Config.crcInitial).respond 0)

/-- `CRC.UPD b` (R67): responds the new `RUN`. -/
def execCrcUpd (b : Byte) (s : State) : Host.Outcome State Fault Refusal :=
  .next (answer s fun s =>
    let run := crcStep s.run b
    (s.setRun run).respond (run.setWidth 48))

/-- `CRC.GET` (R68). -/
def execCrcGet (s : State) : Host.Outcome State Fault Refusal :=
  .next (answer s fun s => s.respond (s.run.setWidth 48))

/-- `CRC.LUT i` (R69): every 8-bit index is legal. -/
def execCrcLut (i : Byte) (s : State) : Host.Outcome State Fault Refusal :=
  .next (answer s fun s => s.respond ((crcTable i).setWidth 48))

end Sys2Proof.Machine
end

