-- ==== Sys2Proof/Machine/DataCode.lean ====
section
/-! DEFINITION. The data-code encoder (41_data_code_encoder.md): the function `DataCode` and `DC.ENC`. -/

namespace Sys2Proof.Machine

/-- The 6 bytes of a DataCode (R80). -/
structure Group where
  g0 : Byte
  g1 : Byte
  g2 : Byte
  g3 : Byte
  g4 : Byte
  g5 : Byte
  deriving DecidableEq, Repr

/-- The bytes of a group in order. -/
def Group.bytes (g : Group) : List Byte := [g.g0, g.g1, g.g2, g.g3, g.g4, g.g5]

/-- The layout of R80: CRC nibbles above data nibbles, the CRC taken over `[v, x]`. -/
def groupLayout (v x : Byte) : Group :=
  let c := crc8 [v, x]
  { g0 := 0x00
    g1 := joinNibbles (highNibble c) (highNibble v)
    g2 := 0x01
    g3 := x
    g4 := 0x00
    g5 := joinNibbles (lowNibble c) (lowNibble v) }

/-- `DataCode(v, x)` (R80): the range test comes before any CRC is computed. The index is a number, since the datum
encoder's counter can reach 128 (C6). -/
def dataCode (v : Byte) (x : Nat) : Except Error Group :=
  if Config.indexMax < x then .error .indexOutOfRange else .ok (groupLayout v (BitVec.ofNat 8 x))

/-- `{g[0], ..., g[5]}`: `g[0]` in `data[47:40]`, `g[5]` in `data[7:0]` (R55, R82). -/
def Group.data (g : Group) : RspData := g.g0 ++ g.g1 ++ g.g2 ++ g.g3 ++ g.g4 ++ g.g5

/-- `DC.ENC v, x` (R82). -/
def execDcEnc (v x : Byte) (s : State) : Host.Outcome State Fault Refusal :=
  .next (answer s fun s =>
    match dataCode v x.toNat with
    | .error e => s.raise e
    | .ok g => s.respond g.data)

end Sys2Proof.Machine
end

