-- ==== Sys2Proof/Machine/Datum.lean ====
section
/-! DEFINITION. The datum encoder (42_datum_encoder.md): the function `DatumCodes` step by step (R90 to R99), then
`CRED.WR`, `CRED.RD`, `DATUM.ENC`, `CODE.RD` and `CODE.CNT`. -/

namespace Sys2Proof.Machine

/-- The credential record (R90). `cred.S` and `cred.P` are the lengths of the lists. -/
structure Credential where
  ssid : List Byte
  pwd : List Byte
  bssid : List Byte
  ip : List Byte
  hidden : Bool
  deriving DecidableEq, Repr

/-- The record read from the credential store (R90). -/
def State.credential (s : State) : Credential where
  ssid := s.credBytes ssidBase s.ssidlen.toNat
  pwd := s.credBytes pwdBase s.pwdlen.toNat
  bssid := s.credBytes bssidBase Config.bssidLen
  ip := s.credBytes ipBase Config.ipLen
  hidden := s.hidden == 1

/-- `totalLen` (R91): the SSID is counted whether or not it is hidden. Not reduced modulo 256 (R106). -/
def Credential.totalLen (c : Credential) : Nat :=
  Config.headerCodes + Config.ipLen + c.pwd.length + c.ssid.length

/-- `totalLen` as the payload byte at index 0, after the test of R99. -/
def Credential.totalLenByte (c : Credential) : Byte := BitVec.ofNat 8 c.totalLen

/-- `pwdLen` as the payload byte at index 1 (R93). -/
def Credential.pwdLenByte (c : Credential) : Byte := BitVec.ofNat 8 c.pwd.length

/-- `ssidCrc` (R92), over all SSID bytes, hidden or not. -/
def Credential.ssidCrc (c : Credential) : Byte := crc8 c.ssid

/-- `bssidCrc` (R92), over the 6 raw bytes. -/
def Credential.bssidCrc (c : Credential) : Byte := crc8 c.bssid

/-- `totalXor` (R95): the SSID bytes are terms whether or not the SSID is hidden. -/
def Credential.totalXor (c : Credential) : Byte :=
  c.totalLenByte ^^^ c.pwdLenByte ^^^ c.ssidCrc ^^^ c.bssidCrc ^^^ xorAll c.ip ^^^ xorAll c.pwd ^^^ xorAll c.ssid

/-- The value sequence (R93): SSID bytes only when hidden. -/
def Credential.values (c : Credential) : List Byte :=
  [c.totalLenByte, c.pwdLenByte, c.ssidCrc, c.bssidCrc, c.totalXor] ++ c.ip ++ c.pwd ++
    (if c.hidden then c.ssid else [])

/-- `N`, the number of groups (R94). -/
def Credential.groupCount (c : Credential) : Nat :=
  Config.headerCodes + Config.ipLen + c.pwd.length + (if c.hidden then c.ssid.length else 0)

/-- The groups of R96 from index `i` up, flattened in index order (R97); fails where a value would stand at index 128. -/
def flattenGroups : Nat → List Byte → Except Error (List Byte)
  | _, [] => .ok []
  | i, v :: rest =>
    match dataCode v i with
    | .error e => .error e
    | .ok g =>
      match flattenGroups (i + 1) rest with
      | .error e => .error e
      | .ok flat => .ok (g.bytes ++ flat)

/-- One packet-length code (R97): the first byte of the pair is the high byte (R35); the sum is taken in 17 bits. -/
def pairCode (first second : Byte) : Code :=
  ((first ++ second).setWidth 17 + BitVec.ofNat 17 Config.extraLen).setWidth 16

/-- Consecutive bytes paired (R97). -/
def pairCodes : List Byte → List Code
  | first :: second :: rest => pairCode first second :: pairCodes rest
  | _ => []

/-- `DatumCodes(cred)` (R97) with the errors of R99. -/
def datumCodes (c : Credential) : Except Error (List Code) :=
  if 255 < c.totalLen then .error .valueOutOfRange
  else
    match flattenGroups 0 c.values with
    | .error e => .error e
    | .ok flat => .ok (pairCodes flat)

/-- `GroupCodes(v, x)` (41_data_code_encoder.md R83): the three codes of one group. -/
def groupCodes (v x : Byte) : List Code :=
  let g := groupLayout v x
  [pairCode g.g0 g.g1, pairCode g.g2 g.g3, pairCode g.g4 g.g5]

/-- `CRED.WR a, b` (R100). -/
def execCredWr (a : BitVec 10) (b : Byte) (s : State) : Host.Outcome State Fault Refusal :=
  .next (answer s fun s =>
    match credPlace a with
    | .storage address => (s.writeCred address b).respond 0
    | .pwdlen => (s.setPwdlen b).respond 0
    | .ssidlen => (s.setSsidlen b).respond 0
    | .hidden => (s.setHidden (b.extractLsb' 0 1)).respond 0
    | .reserved => s.raise .addressOutOfRange)

/-- `CRED.RD a` (R101). -/
def execCredRd (a : BitVec 10) (s : State) : Host.Outcome State Fault Refusal :=
  .next (answer s fun s =>
    match credPlace a with
    | .storage address => s.respond ((s.credByte address).setWidth 48)
    | .pwdlen => s.respond (s.pwdlen.setWidth 48)
    | .ssidlen => s.respond (s.ssidlen.setWidth 48)
    | .hidden => s.respond (s.hidden.setWidth 48)
    | .reserved => s.raise .addressOutOfRange)

/-- The response of `DATUM.ENC` (R55, R102): `totalLen` at `data[31:24]`, `totalXor` at `data[23:16]`, `NCODES` at
`data[8:0]`. -/
def datumData (totalLen totalXor : Byte) (ncodes : BitVec 9) : RspData :=
  0#16 ++ totalLen ++ totalXor ++ 0#7 ++ ncodes

/-- `DATUM.ENC` (R102): both tests come before the first write; the operation is one indivisible step (R37). -/
def execDatumEnc (s : State) : Host.Outcome State Fault Refusal :=
  .next (answer s fun s =>
    let c := s.credential
    if 255 < c.totalLen then s.raise .valueOutOfRange
    else if Config.groupsMax < c.groupCount then s.raise .indexOutOfRange
    else
      match datumCodes c with
      | .error e => s.raise e
      | .ok codes =>
        let ncodes := BitVec.ofNat 9 (3 * c.groupCount)
        (s.storeCodes codes ncodes).respond (datumData c.totalLenByte c.totalXor ncodes))

/-- `CODE.RD k` (R103): out of range at and above `NCODES`, and for every index from 384 up, where no entry exists. -/
def execCodeRd (k : BitVec 9) (s : State) : Host.Outcome State Fault Refusal :=
  .next (answer s fun s =>
    if s.ncodes ≤ k ∨ isCodeIndex k.toNat = false then s.raise .addressOutOfRange
    else s.respond ((s.codeEntry k.toNat).setWidth 48))

/-- `CODE.CNT` (R104). -/
def execCodeCnt (s : State) : Host.Outcome State Fault Refusal :=
  .next (answer s fun s => s.respond (s.ncodes.setWidth 48))

end Sys2Proof.Machine
end

