-- ==== Sys2Proof/Machine/Materializer.lean ====
section
/-! DEFINITION. The packet materializer (43_packet_materializer.md): the function `Materialize` and `MAT.GEN`. -/

namespace Sys2Proof.Machine

/-- `Materialize(c)` (R120): exactly `c` bytes, each `FILL`. -/
def materialize (c : Code) : List Byte := List.replicate c.toNat Config.fill

/-- `MAT.GEN c` (R121): every 16-bit code is accepted (R122). -/
def execMatGen (c : Code) (s : State) : Host.Outcome State Fault Refusal :=
  .next (answer s fun s => (s.emit (materialize c)).respond (c.setWidth 48))

end Sys2Proof.Machine
end

