-- ==== Sys2Proof/Syntax.lean ====
section
/-! DEFINITION. The eleven operations of the block (30_encoding.md R47, R48; spec/opcode_table.json), each operand as wide
as its field of the request word. -/

namespace Sys2Proof

/-- One operation with its operands: one constructor per row of the operation table. -/
inductive Instr where
  /-- `CRC.RST` (R66): start a CRC. -/
  | crcRst
  /-- `CRC.UPD b` (R67): feed one byte. -/
  | crcUpd (b : Byte)
  /-- `CRC.GET` (R68): read the CRC. -/
  | crcGet
  /-- `CRC.LUT i` (R69): read one table entry. -/
  | crcLut (i : Byte)
  /-- `DC.ENC v, x` (R82): encode payload byte `v` at sequence index `x`. -/
  | dcEnc (v x : Byte)
  /-- `CRED.WR a, b` (R100): write byte `b` at credential address `a`. -/
  | credWr (a : BitVec 10) (b : Byte)
  /-- `CRED.RD a` (R101): read credential address `a`. -/
  | credRd (a : BitVec 10)
  /-- `DATUM.ENC` (R102): encode the credential into the code store. -/
  | datumEnc
  /-- `CODE.RD k` (R103): read one packet-length code. -/
  | codeRd (k : BitVec 9)
  /-- `CODE.CNT` (R104): read the number of codes. -/
  | codeCnt
  /-- `MAT.GEN c` (R121): emit one datagram of `c` bytes. -/
  | matGen (c : Code)
  deriving DecidableEq, Repr

end Sys2Proof
end

