-- ==== Sys2Proof/Machine/Dispatch.lean ====
section
/-! DEFINITION. One arm per operation, in the order of the operation table. -/

namespace Sys2Proof.Machine

def exec (i : Instr) (s : State) : Host.Outcome State Fault Refusal :=
  match i with
  | .crcRst => Sys2Proof.Machine.execCrcRst s
  | .crcUpd b => Sys2Proof.Machine.execCrcUpd b s
  | .crcGet => Sys2Proof.Machine.execCrcGet s
  | .crcLut n => Sys2Proof.Machine.execCrcLut n s
  | .dcEnc v x => Sys2Proof.Machine.execDcEnc v x s
  | .credWr a b => Sys2Proof.Machine.execCredWr a b s
  | .credRd a => Sys2Proof.Machine.execCredRd a s
  | .datumEnc => Sys2Proof.Machine.execDatumEnc s
  | .codeRd k => Sys2Proof.Machine.execCodeRd k s
  | .codeCnt => Sys2Proof.Machine.execCodeCnt s
  | .matGen c => Sys2Proof.Machine.execMatGen c s

end Sys2Proof.Machine
end

