-- ==== Sys2Proof/WellFormed.lean ====
section
/-! DEFINITION. Well-formedness of what a host writes down (30_encoding.md R52, R53): a line of a host program has plain
numbers as operands, and "an operand that does not fit its field is an assembly error, not a request". An `Instr` has its
operands in its fields already, so the line it stands for is always well formed. -/

namespace Sys2Proof

/-- One line of a host program before assembly (R52): an operation with numbers as operands, or a pseudo-operation (R53). -/
inductive Source where
  | crcRst
  | crcUpd (b : Nat)
  | crcGet
  | crcLut (i : Nat)
  | dcEnc (v x : Nat)
  | credWr (a b : Nat)
  | credRd (a : Nat)
  | datumEnc
  | codeRd (k : Nat)
  | codeCnt
  | matGen (c : Nat)
  /-- `CRC.BUF b0, ..., bn-1`. -/
  | crcBuf (bytes : List Nat)
  /-- `CRED.BSSID b0, ..., b5`. -/
  | credBssid (bytes : List Nat)
  /-- `CRED.IP b0, b1, b2, b3`. -/
  | credIp (bytes : List Nat)
  /-- `CRED.PWD b0, ..., bn-1`, n at most 255. -/
  | credPwd (bytes : List Nat)
  /-- `CRED.SSID b0, ..., bn-1`, n at most 255. -/
  | credSsid (bytes : List Nat)
  /-- `CRED.HID h`, h 0 or 1. -/
  | credHid (h : Nat)
  deriving DecidableEq, Repr

/-- A number that fits a field of the given width (R52). -/
def fitsField (width n : Nat) : Bool := n < 2 ^ width

/-- Every operand fits its field (R52), and a pseudo-operation has as many operands as R53 allows. -/
def Source.wellFormed : Source → Bool
  | .crcRst => true
  | .crcUpd b => fitsField 8 b
  | .crcGet => true
  | .crcLut i => fitsField 8 i
  | .dcEnc v x => fitsField 8 v && fitsField 8 x
  | .credWr a b => fitsField 10 a && fitsField 8 b
  | .credRd a => fitsField 10 a
  | .datumEnc => true
  | .codeRd k => fitsField 9 k
  | .codeCnt => true
  | .matGen c => fitsField 16 c
  | .crcBuf bytes => bytes.all (fitsField 8)
  | .credBssid bytes => bytes.length == 6 && bytes.all (fitsField 8)
  | .credIp bytes => bytes.length == 4 && bytes.all (fitsField 8)
  | .credPwd bytes => decide (bytes.length ≤ 255) && bytes.all (fitsField 8)
  | .credSsid bytes => decide (bytes.length ≤ 255) && bytes.all (fitsField 8)
  | .credHid h => decide (h ≤ 1)

/-- The line of a host program an operation stands for. -/
def Instr.toSource : Instr → Source
  | .crcRst => .crcRst
  | .crcUpd b => .crcUpd b.toNat
  | .crcGet => .crcGet
  | .crcLut i => .crcLut i.toNat
  | .dcEnc v x => .dcEnc v.toNat x.toNat
  | .credWr a b => .credWr a.toNat b.toNat
  | .credRd a => .credRd a.toNat
  | .datumEnc => .datumEnc
  | .codeRd k => .codeRd k.toNat
  | .codeCnt => .codeCnt
  | .matGen c => .matGen c.toNat

/-- Every operand fits its field; the types of `Instr` make it so (`Laws.instr_wellFormed`). -/
def Instr.wellFormed (i : Instr) : Bool := i.toSource.wellFormed

end Sys2Proof
end

