-- ==== Sys2Proof/Decode.lean ====
section
/-! DEFINITION. The request word (30_encoding.md R45), the decoder, total on all 2^32 words (R54), and the encoder, both
from the patterns of R48. A request is one word: there is no fetch and no byte order of a fetch (20_memory.md R35, R41), so
the decoder reads a word and never bytes. -/

namespace Sys2Proof

/-- The field `op = REQ[31:28]` (R45). -/
def opField (req : Word) : BitVec 4 := req.extractLsb' 28 4

/-- The field `rz = REQ[27:24]`, which must be zero (R45). -/
def rzField (req : Word) : BitVec 4 := req.extractLsb' 24 4

/-- Why a word is illegal: the cases (a), (b), (c) of R50, the first that holds. All three raise `IllegalRequest`; the
block reports no difference between them. -/
inductive Illegal where
  /-- (a) `op` is 0x0 or 0xC to 0xF. -/
  | reservedOp
  /-- (b) `rz` is not zero. -/
  | reservedField
  /-- (c) a bit of `imm` that the operation does not use is 1. -/
  | strayOperandBit
  deriving DecidableEq, Repr

/-- `op` values that select no operation (R47, R50). -/
def isReservedOp (op : BitVec 4) : Bool := op == 0 || 0xC ≤ op

/-- The reason a word that matches no row is refused (R50). -/
def illegalReason (req : Word) : Illegal :=
  if isReservedOp (opField req) then .reservedOp
  else if rzField req ≠ 0 then .reservedField
  else .strayOperandBit

/-- "A request `REQ` selects the operation of a row exactly when `REQ & mask == match`" (R48); operands are unsigned
fields of the word (R49). -/
def decode (req : Word) : Except Illegal Instr :=
  if req &&& 0xFFFFFFFF = 0x10000000 then .ok .crcRst
  else if req &&& 0xFFFFFF00 = 0x20000000 then .ok (.crcUpd (req.extractLsb' 0 8))
  else if req &&& 0xFFFFFFFF = 0x30000000 then .ok .crcGet
  else if req &&& 0xFFFFFF00 = 0x40000000 then .ok (.crcLut (req.extractLsb' 0 8))
  else if req &&& 0xFFFF0000 = 0x50000000 then .ok (.dcEnc (req.extractLsb' 0 8) (req.extractLsb' 8 8))
  else if req &&& 0xFFFC0000 = 0x60000000 then .ok (.credWr (req.extractLsb' 8 10) (req.extractLsb' 0 8))
  else if req &&& 0xFFFC00FF = 0x70000000 then .ok (.credRd (req.extractLsb' 8 10))
  else if req &&& 0xFFFFFFFF = 0x80000000 then .ok .datumEnc
  else if req &&& 0xFFFFFE00 = 0x90000000 then .ok (.codeRd (req.extractLsb' 0 9))
  else if req &&& 0xFFFFFFFF = 0xA0000000 then .ok .codeCnt
  else if req &&& 0xFFFF0000 = 0xB0000000 then .ok (.matGen (req.extractLsb' 0 16))
  else .error (illegalReason req)

/-- The request word of an operation: the "Encoding" line of R66 to R69, R82, R100 to R104, R121. -/
def encode : Instr → Word
  | .crcRst => 0x10000000
  | .crcUpd b => 0x20000000 ||| b.setWidth 32
  | .crcGet => 0x30000000
  | .crcLut i => 0x40000000 ||| i.setWidth 32
  | .dcEnc v x => 0x50000000 ||| x.setWidth 32 <<< 8 ||| v.setWidth 32
  | .credWr a b => 0x60000000 ||| a.setWidth 32 <<< 8 ||| b.setWidth 32
  | .credRd a => 0x70000000 ||| a.setWidth 32 <<< 8
  | .datumEnc => 0x80000000
  | .codeRd k => 0x90000000 ||| k.setWidth 32
  | .codeCnt => 0xA0000000
  | .matGen c => 0xB0000000 ||| c.setWidth 32

/-- The operation the decoder reads from a request of `nbits` bits numbered as the operation table numbers them: bits above
`nbits` are 0. -/
def decodeTableWord (nbits w : Nat) : Option Instr :=
  (decode (BitVec.ofNat 32 (w % 2 ^ nbits))).toOption

end Sys2Proof
end

