-- ==== Sys2Proof/Machine/Fetch.lean ====
section
/-! DEFINITION. What the block takes from its host at each step (70_reset_and_hazards.md R180, R185, R186): one request, or
a reset, or nothing. There is no program counter and no instruction fetch (10_state.md R11): what plays the part of the
fetch is the acceptance of the host's oldest input. -/

namespace Sys2Proof.Machine

/-- The host's oldest input, and the state with that input taken. -/
def nextInput (s : State) : Option (HostInput × State) :=
  match s.input with
  | [] => none
  | first :: rest => some (first, s.withInput rest)

/-- "Between requests it simply waits" (60_exceptions.md R172). -/
def waitForInput (s : State) : State := s

/-- Reset (R180): an operation in progress, if any, is abandoned with no response and no datagram, so the state after
release does not depend on it. -/
def takeReset (_abandoned : Option Word) (s : State) : State := s.afterReset

/-- The operation a request selects (30_encoding.md R54), or none for an illegal word. -/
def decodeRequest (req : Word) : Option Instr := (decode req).toOption

/-- The request word of `nbits` bits numbered as the operation table numbers them. -/
def tableRequest (nbits w : Nat) : HostInput := .request (BitVec.ofNat 32 (w % 2 ^ nbits))

/-- The state in which the host presents one more request before everything else it has to send. -/
def State.presentFirst (s : State) (i : HostInput) : State := s.withInput (i :: s.input)

end Sys2Proof.Machine
end

