-- ==== Sys2Proof/Machine/Step.lean ====
section
/-! DEFINITION. One step of the block: it takes the host's oldest input (R24, R39, R185) and completes it. -/

namespace Sys2Proof.Machine

/-- One step: no input, the block waits; reset, the reset state; a request, its operation or the answer to an illegal word
(30_encoding.md R54; the halted test stands in `answer`, before either). -/
def step (s : State) : Host.Outcome State Fault Refusal :=
  match nextInput s with
  | none => .next (waitForInput s)
  | some (.reset abandoned, t) => .next (takeReset abandoned t)
  | some (.request req, t) =>
    match decodeRequest req with
    | some i => exec i t
    | none => .next (answerIllegal t)

/-- `s` with one request presented as the host's next input (log 5). -/
def State.withFetchWord (s : State) (nbits w : Nat) : State := s.presentFirst (tableRequest nbits w)

end Sys2Proof.Machine
end

