-- ==== Sys2Proof/Machine/Assembler.lean ====
section
/-! DEFINITION. The assembler syntax (30_encoding.md R52) and the pseudo-operations (R53): a line of a host program as
characters, the `Source` it stands for, and the operations it assembles to. -/

namespace Sys2Proof

/-- Why a line is an assembly error (R52). -/
inductive AsmError where
  | unknownMnemonic
  | malformedNumber
  | wrongOperandCount
  | operandDoesNotFit
  deriving DecidableEq, Repr

/-- `CRED.WR` of consecutive addresses from `base` up, one per byte (R53). -/
def writeBytes (base : Nat) : List Nat → List Instr
  | [] => []
  | b :: rest => .credWr (BitVec.ofNat 10 base) (BitVec.ofNat 8 b) :: writeBytes (base + 1) rest

/-- The fixed sequence of requests a line expands to (R52, R53). -/
def Source.expand : Source → List Instr
  | .crcRst => [.crcRst]
  | .crcUpd b => [.crcUpd (BitVec.ofNat 8 b)]
  | .crcGet => [.crcGet]
  | .crcLut i => [.crcLut (BitVec.ofNat 8 i)]
  | .dcEnc v x => [.dcEnc (BitVec.ofNat 8 v) (BitVec.ofNat 8 x)]
  | .credWr a b => [.credWr (BitVec.ofNat 10 a) (BitVec.ofNat 8 b)]
  | .credRd a => [.credRd (BitVec.ofNat 10 a)]
  | .datumEnc => [.datumEnc]
  | .codeRd k => [.codeRd (BitVec.ofNat 9 k)]
  | .codeCnt => [.codeCnt]
  | .matGen c => [.matGen (BitVec.ofNat 16 c)]
  | .crcBuf bytes => .crcRst :: (bytes.map fun b => .crcUpd (BitVec.ofNat 8 b)) ++ [.crcGet]
  | .credBssid bytes => writeBytes 0x000 bytes
  | .credIp bytes => writeBytes 0x008 bytes
  | .credPwd bytes => writeBytes 0x100 bytes ++ [.credWr 0x010 (BitVec.ofNat 8 bytes.length)]
  | .credSsid bytes => writeBytes 0x200 bytes ++ [.credWr 0x011 (BitVec.ofNat 8 bytes.length)]
  | .credHid h => [.credWr 0x012 (BitVec.ofNat 8 h)]

/-- A line assembled: "an operand that does not fit its field is an assembly error, not a request" (R52). -/
def assemble (src : Source) : Except AsmError (List Instr) :=
  if src.wellFormed then .ok src.expand else .error .operandDoesNotFit

/-- The value of a digit in base 16 or less; letters in either case (log 13). -/
def digitValue (c : Char) : Option Nat :=
  if '0' ≤ c ∧ c ≤ '9' then some (c.toNat - '0'.toNat)
  else if 'a' ≤ c ∧ c ≤ 'f' then some (c.toNat - 'a'.toNat + 10)
  else if 'A' ≤ c ∧ c ≤ 'F' then some (c.toNat - 'A'.toNat + 10)
  else none

/-- Digits read in a base, most significant first, after the value so far. -/
def readDigits (base : Nat) : Nat → List Char → Option Nat
  | value, [] => some value
  | value, c :: rest =>
    match digitValue c with
    | none => none
    | some d => if d < base then readDigits base (value * base + d) rest else none

/-- "Numbers are decimal or `0x` hexadecimal" (R52). -/
def readNumber : List Char → Option Nat
  | [] => none
  | ['0', 'x'] => none
  | '0' :: 'x' :: digits => readDigits 16 0 digits
  | digits => readDigits 10 0 digits

/-- White space between the parts of a line: spaces and tabs (log 13). -/
def isBlank (c : Char) : Bool := c == ' ' || c == '\t'

/-- A piece of a line without blanks at either end. -/
def trimBlanks (cs : List Char) : List Char :=
  ((cs.dropWhile isBlank).reverse.dropWhile isBlank).reverse

/-- A list cut at every comma. -/
def splitCommas : List Char → List (List Char)
  | [] => [[]]
  | c :: rest =>
    if c == ',' then [] :: splitCommas rest
    else
      match splitCommas rest with
      | [] => [[c]]
      | piece :: pieces => (c :: piece) :: pieces

/-- "Operands in the order of rule R48 separated by commas" (R52); none where nothing follows the mnemonic. -/
def readOperands (cs : List Char) : Option (List Nat) :=
  match trimBlanks cs with
  | [] => some []
  | c :: rest => (splitCommas (c :: rest)).mapM fun piece => readNumber (trimBlanks piece)

/-- A capital letter for a small one: "mnemonics are case-insensitive" (R52). -/
def upperCase (c : Char) : Char :=
  if 'a' ≤ c ∧ c ≤ 'z' then Char.ofNat (c.toNat - 32) else c

/-- The line of a mnemonic and its operands in the order of R48 and R53. -/
def buildSource (mnemonic : List Char) (operands : List Nat) : Except AsmError Source :=
  if mnemonic = ['C', 'R', 'C', '.', 'R', 'S', 'T'] then
    match operands with
    | [] => .ok .crcRst
    | _ => .error .wrongOperandCount
  else if mnemonic = ['C', 'R', 'C', '.', 'U', 'P', 'D'] then
    match operands with
    | [b] => .ok (.crcUpd b)
    | _ => .error .wrongOperandCount
  else if mnemonic = ['C', 'R', 'C', '.', 'G', 'E', 'T'] then
    match operands with
    | [] => .ok .crcGet
    | _ => .error .wrongOperandCount
  else if mnemonic = ['C', 'R', 'C', '.', 'L', 'U', 'T'] then
    match operands with
    | [i] => .ok (.crcLut i)
    | _ => .error .wrongOperandCount
  else if mnemonic = ['D', 'C', '.', 'E', 'N', 'C'] then
    match operands with
    | [v, x] => .ok (.dcEnc v x)
    | _ => .error .wrongOperandCount
  else if mnemonic = ['C', 'R', 'E', 'D', '.', 'W', 'R'] then
    match operands with
    | [a, b] => .ok (.credWr a b)
    | _ => .error .wrongOperandCount
  else if mnemonic = ['C', 'R', 'E', 'D', '.', 'R', 'D'] then
    match operands with
    | [a] => .ok (.credRd a)
    | _ => .error .wrongOperandCount
  else if mnemonic = ['D', 'A', 'T', 'U', 'M', '.', 'E', 'N', 'C'] then
    match operands with
    | [] => .ok .datumEnc
    | _ => .error .wrongOperandCount
  else if mnemonic = ['C', 'O', 'D', 'E', '.', 'R', 'D'] then
    match operands with
    | [k] => .ok (.codeRd k)
    | _ => .error .wrongOperandCount
  else if mnemonic = ['C', 'O', 'D', 'E', '.', 'C', 'N', 'T'] then
    match operands with
    | [] => .ok .codeCnt
    | _ => .error .wrongOperandCount
  else if mnemonic = ['M', 'A', 'T', '.', 'G', 'E', 'N'] then
    match operands with
    | [c] => .ok (.matGen c)
    | _ => .error .wrongOperandCount
  else if mnemonic = ['C', 'R', 'C', '.', 'B', 'U', 'F'] then .ok (.crcBuf operands)
  else if mnemonic = ['C', 'R', 'E', 'D', '.', 'B', 'S', 'S', 'I', 'D'] then .ok (.credBssid operands)
  else if mnemonic = ['C', 'R', 'E', 'D', '.', 'I', 'P'] then .ok (.credIp operands)
  else if mnemonic = ['C', 'R', 'E', 'D', '.', 'P', 'W', 'D'] then .ok (.credPwd operands)
  else if mnemonic = ['C', 'R', 'E', 'D', '.', 'S', 'S', 'I', 'D'] then .ok (.credSsid operands)
  else if mnemonic = ['C', 'R', 'E', 'D', '.', 'H', 'I', 'D'] then
    match operands with
    | [h] => .ok (.credHid h)
    | _ => .error .wrongOperandCount
  else .error .unknownMnemonic

/-- A line of a host program (R52): what stands before the first `;`, its mnemonic, its operands. A line with nothing
before the comment stands for no request. -/
def readLine (line : List Char) : Except AsmError (Option Source) :=
  match trimBlanks (line.takeWhile fun c => c != ';') with
  | [] => .ok none
  | c :: rest =>
    let text := c :: rest
    match readOperands (text.dropWhile fun c => !isBlank c) with
    | none => .error .malformedNumber
    | some operands =>
      match buildSource ((text.takeWhile fun c => !isBlank c).map upperCase) operands with
      | .error e => .error e
      | .ok src => .ok (some src)

/-- A line of a host program assembled to its requests (R52, R53). -/
def assembleLine (line : List Char) : Except AsmError (List Instr) :=
  match readLine line with
  | .error e => .error e
  | .ok none => .ok []
  | .ok (some src) => assemble src

end Sys2Proof
end

