-- ==== Sys2Proof/Safety.lean ====
section
/-! DEFINITION. What counts as a good run (60_exceptions.md R167, 70_reset_and_hazards.md R183, R187), the invariants
the claims use, and the spec's tables the claims compare with. -/

namespace Sys2Proof.Machine

/-- How a run ends (R187). -/
inductive RunEnd where
  | good
  | faulted (code : ErrCode)
  deriving DecidableEq, Repr

/-- "The run is good when `ERR = 0` at the end, and faulted otherwise" (R187). -/
def State.runEnd (s : State) : RunEnd := if s.halted then .faulted s.err else .good

/-- A final state meets a postcondition only where the run is good: a halted block "is never a final state that satisfies
a postcondition" (R167). -/
def State.meets (s : State) (post : State → Prop) : Prop := s.runEnd = .good ∧ post s

/-- A state whose host has a sequence of requests to send (R187). -/
def State.withRequests (s : State) (reqs : List Word) : State := s.withInput (reqs.map .request)

/-- The run of the block from reset under a finite sequence of requests (R187): its final state holds the list of
responses and the output history. -/
def runFromReset (reqs : List Word) : Host.Outcome State Fault Refusal :=
  Sys2Proof.core.run reqs.length (State.reset.withRequests reqs)

/-- Every byte at the given addresses has been written since reset. -/
def State.written (s : State) (addresses : List Nat) : Bool :=
  addresses.all fun a => (Memory.find s.cred a).isSome

/-- The addresses of the bytes `DATUM.ENC` reads (R37, R90). -/
def State.credentialAddresses (s : State) : List Nat :=
  List.range' bssidBase Config.bssidLen ++ List.range' ipBase Config.ipLen ++
    List.range' pwdBase s.pwdlen.toNat ++ List.range' ssidBase s.ssidlen.toNat

/-- The host's duty before `DATUM.ENC` (R183): every byte the lengths declare has been written since reset. -/
def State.credentialWritten (s : State) : Bool := s.written s.credentialAddresses

/-- Both stores are in canonical form (20_memory.md R30, R32, R34; log 2). -/
def State.storesWf (s : State) : Bool := Memory.wf isCredStorage s.cred && Memory.wf isCodeIndex s.code

/-- `ERR` holds 0 or a code the block produces (R160): never 2, never 6 to 15 (R162). -/
def State.errLegal (s : State) : Prop := s.err = 0 ∨ s.err = 1 ∨ s.err = 3 ∨ s.err = 4 ∨ s.err = 5

/-- The code store holds what a successful `DATUM.ENC` leaves (10_state.md R16, 42_datum_encoder.md R98): three codes per
group, none or 9 to 128 groups, every code below `NCODES` written, and each in its range. -/
def State.codesLegal (s : State) : Prop :=
  ∃ n : Nat, s.ncodes.toNat = 3 * n ∧ (n = 0 ∨ 9 ≤ n) ∧ n ≤ 128 ∧
    (∀ k < 3 * n, (Memory.find s.code k).isSome) ∧
    ∀ i < n,
      (40 ≤ (s.codeEntry (3 * i)).toNat ∧ (s.codeEntry (3 * i)).toNat ≤ 295) ∧
      (s.codeEntry (3 * i + 1)).toNat = 296 + i ∧
      (40 ≤ (s.codeEntry (3 * i + 2)).toNat ∧ (s.codeEntry (3 * i + 2)).toNat ≤ 295)

/-- The responses since reset are successes followed by answers that all carry the latched error (R17, R46, R166, R167). -/
def State.historyLegal (s : State) : Prop :=
  ∃ done refused : List Response, s.rsps = done ++ refused ∧ (∀ r ∈ done, r.err = 0) ∧
    (∀ r ∈ refused, r = { err := s.err, data := 0 }) ∧ (s.err = 0 ↔ refused = [])

/-- Every datagram of the output history is one the materializer makes (R120). -/
def State.outputLegal (s : State) : Prop := ∀ d ∈ s.out, ∃ c : Code, d = List.replicate c.toNat Config.fill

/-- The operation table (30_encoding.md R48): mnemonic, `mask`, `match`. -/
def operationRows : List (String × Word × Word) :=
  [("CRC.RST", 0xFFFFFFFF, 0x10000000), ("CRC.UPD", 0xFFFFFF00, 0x20000000), ("CRC.GET", 0xFFFFFFFF, 0x30000000),
    ("CRC.LUT", 0xFFFFFF00, 0x40000000), ("DC.ENC", 0xFFFF0000, 0x50000000), ("CRED.WR", 0xFFFC0000, 0x60000000),
    ("CRED.RD", 0xFFFC00FF, 0x70000000), ("DATUM.ENC", 0xFFFFFFFF, 0x80000000), ("CODE.RD", 0xFFFFFE00, 0x90000000),
    ("CODE.CNT", 0xFFFFFFFF, 0xA0000000), ("MAT.GEN", 0xFFFF0000, 0xB0000000)]

/-- The mnemonics of the rows a word selects (R48). -/
def selectedRows (req : Word) : List String :=
  (operationRows.filter fun r => req &&& r.2.1 == r.2.2).map (·.1)

/-- The mnemonic of an operation (R47). -/
def mnemonicOf : Instr → String
  | .crcRst => "CRC.RST"
  | .crcUpd _ => "CRC.UPD"
  | .crcGet => "CRC.GET"
  | .crcLut _ => "CRC.LUT"
  | .dcEnc _ _ => "DC.ENC"
  | .credWr _ _ => "CRED.WR"
  | .credRd _ => "CRED.RD"
  | .datumEnc => "DATUM.ENC"
  | .codeRd _ => "CODE.RD"
  | .codeCnt => "CODE.CNT"
  | .matGen _ => "MAT.GEN"

/-- The bits of `imm` that R48 shows as a fixed 0, for each `op` that selects an operation. -/
def fixedZeroBits (op : BitVec 4) : BitVec 24 :=
  if op = 0x2 ∨ op = 0x4 then 0xFFFF00
  else if op = 0x5 ∨ op = 0xB then 0xFF0000
  else if op = 0x6 then 0xFC0000
  else if op = 0x7 then 0xFC00FF
  else if op = 0x9 then 0xFFFE00
  else 0xFFFFFF

/-- The running value of `compute` with `W` bits kept (40_crc_engine.md R63), as numbers. -/
def crcWide (W : Nat) (bytes : List Byte) : Nat :=
  bytes.foldl (fun run b =>
    ((crcTable (BitVec.ofNat 8 ((run ^^^ b.toNat) % 256))).toNat ^^^ run <<< 8) % 2 ^ W) 0

/-- Operations that write no register but `ERR` and no store (R10, R19, R37). -/
def readsOnly : Instr → Bool
  | .crcGet | .crcLut _ | .dcEnc _ _ | .credRd _ | .codeRd _ | .codeCnt => true
  | .crcRst | .crcUpd _ | .credWr _ _ | .datumEnc | .matGen _ => false

/-- `totalLen` (R91), from the registers alone. -/
def State.declaredTotal (s : State) : Nat := 9 + s.pwdlen.toNat + s.ssidlen.toNat

/-- `N` (R94), from the registers alone. -/
def State.declaredGroups (s : State) : Nat :=
  9 + s.pwdlen.toNat + (if s.hidden = 1 then s.ssidlen.toNat else 0)

/-- The requests of a line of a host program, as the host's inputs (R52, R53). -/
def hostInputs (src : Source) : List HostInput := src.expand.map fun i => .request (encode i)

end Sys2Proof.Machine
end

