-- ==== Sys2Proof/Certificates/Slice0/Obligations.lean ====
section
/-! DEFINITION. The claims about the block, each from numbered rules of the spec. Response records are written
`⟨err, data⟩`. -/

open Sys2Proof Sys2Proof.Machine

/-- R48, R49: decoding the word of an operation gives the operation, at every value of every operand. -/
def Obligations.DecodeEncodeIsIdentity : Prop :=
  ∀ i : Instr, decode (encode i) = .ok i

/-- R48, R49: a word the decoder accepts is the word of the operation it reads, so no bit is dropped and each legal word
has one meaning. -/
def Obligations.EncodeDecodeIsIdentity : Prop :=
  ∀ (req : Word) (i : Instr), decode req = .ok i → encode i = req

/-- R48, R54: every word selects exactly the row of the operation the decoder reads, or no row where the decoder refuses. -/
def Obligations.WordSelectsOneRowOrNone : Prop :=
  ∀ req : Word, selectedRows req =
    match decode req with
    | .ok i => [mnemonicOf i]
    | .error _ => []

/-- R50: a word is illegal exactly in the cases (a), (b), (c), equivalently where it matches no row of R48; an illegal request raises `IllegalRequest` and changes
nothing else. -/
def Obligations.IllegalWordRaisesIllegalRequest : Prop :=
  (∀ req : Word, (∃ e, decode req = .error e) ↔
    (opField req = 0x0 ∨ 0xC ≤ opField req) ∨ rzField req ≠ 0 ∨
      req.extractLsb' 0 24 &&& fixedZeroBits (opField req) ≠ 0) ∧
  (∀ req : Word, (∃ e, decode req = .error e) ↔ selectedRows req = []) ∧
  (∃ e, decode 0x00000000 = .error e) ∧ (∃ e, decode 0xFFFFFFFF = .error e) ∧
  ∀ (s : State) (req : Word) (rest : List HostInput) (e : Illegal),
    s.err = 0 → s.input = .request req :: rest → decode req = .error e →
    step s = .next { s with err := 4, rsps := s.rsps ++ [⟨4, 0⟩], input := rest }

/-- R48: words written out from the patterns of the table. -/
def Obligations.SampleWordsDecode : Prop :=
  decode 0x10000000 = .ok .crcRst ∧ decode 0x20000041 = .ok (.crcUpd 0x41) ∧ decode 0x30000000 = .ok .crcGet ∧
  decode 0x4000001D = .ok (.crcLut 0x1D) ∧ decode 0x50000541 = .ok (.dcEnc 0x41 5) ∧
  decode 0x60010031 = .ok (.credWr 0x100 0x31) ∧ decode 0x7003FF00 = .ok (.credRd 0x3FF) ∧
  decode 0x80000000 = .ok .datumEnc ∧ decode 0x9000017F = .ok (.codeRd 383) ∧ decode 0xA0000000 = .ok .codeCnt ∧
  decode 0xB00001A7 = .ok (.matGen 423)

/-- R54, R39, R185: a step on a request that selects an operation is that operation, with the request taken. -/
def Obligations.StepRunsDecodedOperation : Prop :=
  ∀ (s : State) (req : Word) (rest : List HostInput) (i : Instr),
    s.input = .request req :: rest → decode req = .ok i → step s = exec i (s.withInput rest)

/-- R54: the halted test, then decode, then the operation, for every one of the 2^32 words. -/
def Obligations.DecodeProcedureOrder : Prop :=
  ∀ (s : State) (req : Word) (rest : List HostInput), s.input = .request req :: rest →
    (s.err ≠ 0 → step s = .next { s with rsps := s.rsps ++ [⟨s.err, 0⟩], input := rest }) ∧
    (s.err = 0 → selectedRows req = [] →
      step s = .next { s with err := 4, rsps := s.rsps ++ [⟨4, 0⟩], input := rest }) ∧
    (s.err = 0 → selectedRows req ≠ [] →
      ∃ i, encode i = req ∧ selectedRows req = [mnemonicOf i] ∧ step s = exec i (s.withInput rest))

/-- R167: while `ERR` is not 0 every request, legal or not, is answered with `ERR` and data 0 and performs nothing; such
a state meets no postcondition. -/
def Obligations.HaltedBlockPerformsNothing : Prop :=
  (∀ (s : State) (req : Word) (rest : List HostInput), s.err ≠ 0 → s.input = .request req :: rest →
    step s = .next { s with rsps := s.rsps ++ [⟨s.err, 0⟩], input := rest } ∧
    ∀ post : State → Prop, ¬ State.meets { s with rsps := s.rsps ++ [⟨s.err, 0⟩], input := rest } post) ∧
  ∀ (s : State) (i : Instr), s.err ≠ 0 → exec i s = .next { s with rsps := s.rsps ++ [⟨s.err, 0⟩] }

/-- R172, R182: between requests the block waits. -/
def Obligations.BlockWaitsWithoutInput : Prop :=
  ∀ s : State, s.input = [] → step s = .next s

/-- R180, R22: reset, at any time and whatever operation it abandons, leaves every register 0 and `OUT` empty. That the
responses seen are forgotten and that the unspecified bytes are drawn anew is the model's choice (log 6, log 4). -/
def Obligations.ResetInputLeavesResetState : Prop :=
  ∀ (s : State) (abandoned : Option Word) (rest : List HostInput), s.input = .reset abandoned :: rest →
    ∃ t, step s = .next t ∧ t.run = 0 ∧ t.pwdlen = 0 ∧ t.ssidlen = 0 ∧ t.hidden = 0 ∧ t.ncodes = 0 ∧ t.err = 0 ∧
      t.out = [] ∧ t.rsps = [] ∧ t.input = rest ∧ (∀ a, t.credByte a = Config.credAtReset (s.draw + 1) a)

/-- R22: the registers and the output history after reset. -/
def Obligations.ResetStateValues : Prop :=
  State.reset.run = 0x00 ∧ State.reset.pwdlen = 0 ∧ State.reset.ssidlen = 0 ∧ State.reset.hidden = 0 ∧
  State.reset.ncodes = 0 ∧ State.reset.err = 0 ∧ State.reset.out = [] ∧ State.reset.runEnd = .good

/-- R22, R16, R160: the reset state meets every invariant of `Safety.lean`. -/
def Obligations.ResetMeetsEveryInvariant : Prop :=
  State.reset.storesWf = true ∧ State.reset.errLegal ∧ State.reset.codesLegal ∧ State.reset.historyLegal ∧
  State.reset.outputLegal

/-- R32, R33, R34: every step keeps both stores in canonical form, at addresses of their maps only (log 2). -/
def Obligations.StepKeepsStoresCanonical : Prop :=
  ∀ s t : State, s.storesWf = true → step s = .next t → t.storesWf = true

/-- R160, R162: every step keeps `ERR` at 0 or a code the block produces; never 2, never 6 to 15. -/
def Obligations.StepKeepsErrLegal : Prop :=
  ∀ s t : State, s.errLegal → step s = .next t → t.errLegal

/-- R16, R98: every step keeps `NCODES` three times a number of groups, none or 9 to 128, with every code below it
written and in its range. -/
def Obligations.StepKeepsCodesLegal : Prop :=
  ∀ s t : State, s.codesLegal → step s = .next t → t.codesLegal

/-- R17, R46, R166, R167: every step keeps the responses since reset of the form successes, then answers that carry the
one latched error with data 0. -/
def Obligations.StepKeepsHistoryLegal : Prop :=
  ∀ s t : State, s.historyLegal → step s = .next t → t.historyLegal

/-- R120: every step keeps `OUT` a list of datagrams of `FILL` bytes, each of at most 65535 bytes. -/
def Obligations.StepKeepsOutputLegal : Prop :=
  ∀ s t : State, s.outputLegal → step s = .next t → t.outputLegal

/-- R17, R168: once set, `ERR` changes only at reset. -/
def Obligations.ErrIsStickyUntilReset : Prop :=
  ∀ s t : State, s.err ≠ 0 → step s = .next t → t.err ≠ s.err → ∃ abandoned rest, s.input = .reset abandoned :: rest

/-- R46, R185: a step on a request answers it with exactly one response, whose `err` is what `ERR` then holds and whose
data is 0 where it is an error, and emits at most one datagram. -/
def Obligations.OneResponsePerRequest : Prop :=
  ∀ (s : State) (req : Word) (rest : List HostInput), s.input = .request req :: rest →
    ∃ (t : State) (r : Response), step s = .next t ∧ t.input = rest ∧ t.rsps = s.rsps ++ [r] ∧ r.err = t.err ∧
      (r.err ≠ 0 → r.data = 0) ∧ (t.out = s.out ∨ ∃ d, t.out = s.out ++ [d] ∧ r.err = 0)

/-- R187, R189: the run from reset under any finite sequence of requests ends, with one response per request, and it is
good exactly where every response is a success. -/
def Obligations.RunAnswersEveryRequest : Prop :=
  ∀ reqs : List Word, ∃ t, runFromReset reqs = .next t ∧ t.input = [] ∧ t.rsps.length = reqs.length ∧
    (t.runEnd = .good ↔ ∀ r ∈ t.rsps, r.err = 0)

/-- R66. -/
def Obligations.CrcRstStartsACrc : Prop :=
  encode .crcRst = 0x10000000 ∧
  ∀ s : State, s.err = 0 → exec .crcRst s = .next { s with run := 0x00, rsps := s.rsps ++ [⟨0, 0⟩] }

/-- R67. -/
def Obligations.CrcUpdFeedsOneByte : Prop :=
  (∀ b : Byte, encode (.crcUpd b) = 0x20000000 ||| b.setWidth 32) ∧
  (∀ (s : State) (b : Byte), s.err = 0 →
    exec (.crcUpd b) s = .next { s with
      run := (crcTable (s.run ^^^ b)).setWidth 8
      rsps := s.rsps ++ [⟨0, ((crcTable (s.run ^^^ b)).setWidth 8).setWidth 48⟩] }) ∧
  crcTable 0x00 = 0x00 ∧ crcTable 0x41 = 0x18 ∧ crcTable 0x1D = 0x60

/-- R68: the response, with `RUN` unchanged. -/
def Obligations.CrcGetRespondsRun : Prop :=
  encode .crcGet = 0x30000000 ∧
  ∀ s : State, s.err = 0 → exec .crcGet s = .next { s with rsps := s.rsps ++ [⟨0, s.run.setWidth 48⟩] }

/-- R69, R61: the response is the whole 16-bit entry, its upper byte always 0. -/
def Obligations.CrcLutRespondsTableEntry : Prop :=
  (∀ i : Byte, encode (.crcLut i) = 0x40000000 ||| i.setWidth 32) ∧
  (∀ (s : State) (i : Byte), s.err = 0 →
    exec (.crcLut i) s = .next { s with rsps := s.rsps ++ [⟨0, (crcTable i).setWidth 48⟩] }) ∧
  (∀ i : Byte, (crcTable i).extractLsb' 8 8 = 0) ∧ crcTable 0x01 = 0x5E ∧ crcTable 0x80 = 0x8C

/-- R53, R68: the requests of `CRC.BUF` respond `Crc8` of the bytes so far, end with `Crc8` of the buffer, and change
nothing but `RUN`. -/
def Obligations.CrcBufferSequenceRespondsCrc8 : Prop :=
  ∀ (s : State) (bytes : List Byte), s.err = 0 →
    Sys2Proof.core.run (bytes.length + 2)
        (s.withInput (hostInputs (.crcBuf (bytes.map BitVec.toNat)) ++ s.input)) =
      .next { s with
        run := crc8 bytes
        rsps := s.rsps ++ ⟨0, 0⟩ ::
          (List.range bytes.length).map (fun k => ⟨0, (crc8 (bytes.take (k + 1))).setWidth 48⟩) ++
          [⟨0, (crc8 bytes).setWidth 48⟩] }

/-- R62: the table is linear over XOR and a permutation of 0 to 255. -/
def Obligations.CrcTableIsLinearPermutation : Prop :=
  (∀ a b : Byte, crcTable (a ^^^ b) = crcTable a ^^^ crcTable b) ∧
  (∀ a b : Byte, crcTable a = crcTable b → a = b) ∧ ∀ v : Byte, ∃ a : Byte, crcTable a = v.setWidth 16

/-- R62: the table row by row. -/
def Obligations.CrcTableContents : Prop :=
  (List.range 256).map (fun i => (crcTable (BitVec.ofNat 8 i)).toNat) =
    [0x00, 0x5E, 0xBC, 0xE2, 0x61, 0x3F, 0xDD, 0x83, 0xC2, 0x9C, 0x7E, 0x20, 0xA3, 0xFD, 0x1F, 0x41] ++
    [0x9D, 0xC3, 0x21, 0x7F, 0xFC, 0xA2, 0x40, 0x1E, 0x5F, 0x01, 0xE3, 0xBD, 0x3E, 0x60, 0x82, 0xDC] ++
    [0x23, 0x7D, 0x9F, 0xC1, 0x42, 0x1C, 0xFE, 0xA0, 0xE1, 0xBF, 0x5D, 0x03, 0x80, 0xDE, 0x3C, 0x62] ++
    [0xBE, 0xE0, 0x02, 0x5C, 0xDF, 0x81, 0x63, 0x3D, 0x7C, 0x22, 0xC0, 0x9E, 0x1D, 0x43, 0xA1, 0xFF] ++
    [0x46, 0x18, 0xFA, 0xA4, 0x27, 0x79, 0x9B, 0xC5, 0x84, 0xDA, 0x38, 0x66, 0xE5, 0xBB, 0x59, 0x07] ++
    [0xDB, 0x85, 0x67, 0x39, 0xBA, 0xE4, 0x06, 0x58, 0x19, 0x47, 0xA5, 0xFB, 0x78, 0x26, 0xC4, 0x9A] ++
    [0x65, 0x3B, 0xD9, 0x87, 0x04, 0x5A, 0xB8, 0xE6, 0xA7, 0xF9, 0x1B, 0x45, 0xC6, 0x98, 0x7A, 0x24] ++
    [0xF8, 0xA6, 0x44, 0x1A, 0x99, 0xC7, 0x25, 0x7B, 0x3A, 0x64, 0x86, 0xD8, 0x5B, 0x05, 0xE7, 0xB9] ++
    [0x8C, 0xD2, 0x30, 0x6E, 0xED, 0xB3, 0x51, 0x0F, 0x4E, 0x10, 0xF2, 0xAC, 0x2F, 0x71, 0x93, 0xCD] ++
    [0x11, 0x4F, 0xAD, 0xF3, 0x70, 0x2E, 0xCC, 0x92, 0xD3, 0x8D, 0x6F, 0x31, 0xB2, 0xEC, 0x0E, 0x50] ++
    [0xAF, 0xF1, 0x13, 0x4D, 0xCE, 0x90, 0x72, 0x2C, 0x6D, 0x33, 0xD1, 0x8F, 0x0C, 0x52, 0xB0, 0xEE] ++
    [0x32, 0x6C, 0x8E, 0xD0, 0x53, 0x0D, 0xEF, 0xB1, 0xF0, 0xAE, 0x4C, 0x12, 0x91, 0xCF, 0x2D, 0x73] ++
    [0xCA, 0x94, 0x76, 0x28, 0xAB, 0xF5, 0x17, 0x49, 0x08, 0x56, 0xB4, 0xEA, 0x69, 0x37, 0xD5, 0x8B] ++
    [0x57, 0x09, 0xEB, 0xB5, 0x36, 0x68, 0x8A, 0xD4, 0x95, 0xCB, 0x29, 0x77, 0xF4, 0xAA, 0x48, 0x16] ++
    [0xE9, 0xB7, 0x55, 0x0B, 0x88, 0xD6, 0x34, 0x6A, 0x2B, 0x75, 0x97, 0xC9, 0x4A, 0x14, 0xF6, 0xA8] ++
    [0x74, 0x2A, 0xC8, 0x96, 0x15, 0x4B, 0xA9, 0xF7, 0xB6, 0xE8, 0x0A, 0x54, 0xD7, 0x89, 0x6B, 0x35]

/-- R63, R64: whatever width of 8 or more bits the running value has, its low byte is the 8-bit recurrence. -/
def Obligations.Crc8IndependentOfRunningWidth : Prop :=
  ∀ (W : Nat) (bytes : List Byte), 8 ≤ W → BitVec.ofNat 8 (crcWide W bytes) = crc8 bytes

/-- R65: (a), (c), (d) and (e); (b) holds because `crc8` is a function of the list. -/
def Obligations.Crc8Properties : Prop :=
  crc8 [] = 0x00 ∧ (∀ n : Nat, crc8 (List.replicate n 0x00) = 0x00) ∧
  (∀ bytes : List Byte, crc8 (bytes ++ [crc8 bytes]) = 0x00) ∧
  (∀ (bytes : List Byte) (b : Byte), crc8 (bytes ++ [b]) = (crcTable (crc8 bytes ^^^ b)).setWidth 8) ∧
  ∀ (s : State) (bytes : List Byte) (b : Byte), s.err = 0 → s.run = crc8 bytes →
    ∃ t, exec (.crcUpd b) s = .next t ∧ t.run = crc8 (bytes ++ [b])

/-- R82, R80, R55: the six bytes for every index 0 to 127, `IndexOutOfRange` for every index above, nothing else
changed. -/
def Obligations.DcEncRespondsDataCode : Prop :=
  (∀ v x : Byte, encode (.dcEnc v x) = 0x50000000 ||| x.setWidth 32 <<< 8 ||| v.setWidth 32) ∧
  (∀ (s : State) (v x : Byte), s.err = 0 → x.toNat ≤ 127 →
    ∃ data : RspData, exec (.dcEnc v x) s = .next { s with rsps := s.rsps ++ [⟨0, data⟩] } ∧
      data.extractLsb' 40 8 = 0x00 ∧
      data.extractLsb' 32 8 = (crc8 [v, x] >>> 4) <<< 4 ||| v >>> 4 ∧
      data.extractLsb' 24 8 = 0x01 ∧
      data.extractLsb' 16 8 = x ∧
      data.extractLsb' 8 8 = 0x00 ∧
      data.extractLsb' 0 8 = (crc8 [v, x] &&& 0x0F) <<< 4 ||| (v &&& 0x0F)) ∧
  (∀ (s : State) (v x : Byte), s.err = 0 → 127 < x.toNat →
    exec (.dcEnc v x) s = .next { s with err := 1, rsps := s.rsps ++ [⟨1, 0⟩] }) ∧
  (∀ v x : Byte, (encode (.dcEnc v x)).getLsbD 15 = true ↔ 127 < x.toNat) ∧
  crc8 [0x41, 0x05] = 0x60

/-- R81: what a group is made of, and that value, index and CRC can be read back from it. -/
def Obligations.DataCodeIsInjective : Prop :=
  (∀ v x : Byte,
    (groupLayout v x).g0 = 0x00 ∧ (groupLayout v x).g2 = 0x01 ∧ (groupLayout v x).g4 = 0x00 ∧
    v = ((groupLayout v x).g1 &&& 0x0F) <<< 4 ||| ((groupLayout v x).g5 &&& 0x0F) ∧
    x = (groupLayout v x).g3 ∧
    crc8 [v, x] = ((groupLayout v x).g1 >>> 4) <<< 4 ||| (groupLayout v x).g5 >>> 4) ∧
  (∀ (v w : Byte) (x y : Nat) (g : Group), dataCode v x = .ok g → dataCode w y = .ok g → v = w ∧ x = y) ∧
  ∀ (v : Byte) (x : Nat) (g : Group), dataCode v x = .ok g → g.g3.getLsbD 7 = false

/-- R83: the three codes of one group, as numbers, and their ranges. -/
def Obligations.GroupCodesOfOneGroup : Prop :=
  ∀ (v x : Byte), x.toNat ≤ 127 →
    (groupCodes v x).map BitVec.toNat =
      [40 + (groupLayout v x).g1.toNat, 296 + x.toNat, 40 + (groupLayout v x).g5.toNat] ∧
    ((groupCodes v x).map BitVec.toNat).all (fun c => 40 ≤ c && c ≤ 423) = true

/-- R94, R96, R97, R98: `DatumCodes` has three codes per value, those of the value's group at the value's position. -/
def Obligations.DatumCodesAreTheGroupCodes : Prop :=
  ∀ c : Credential, c.ip.length = 4 → 9 + c.pwd.length + c.ssid.length ≤ 255 → c.groupCount ≤ 128 →
    c.values.length = c.groupCount ∧
    ∃ codes, datumCodes c = .ok codes ∧ codes.length = 3 * c.groupCount ∧
      ∀ (i : Nat) (v : Byte), c.values[i]? = some v →
        (codes.drop (3 * i)).take 3 = groupCodes v (BitVec.ofNat 8 i)

/-- R99: the two conditions of failure, the order they are reported in, and that there is no other. -/
def Obligations.DatumCodesFailsExactlyOnLengths : Prop :=
  ∀ c : Credential, c.ip.length = 4 →
    (255 < 9 + c.pwd.length + c.ssid.length → datumCodes c = .error .valueOutOfRange) ∧
    (9 + c.pwd.length + c.ssid.length ≤ 255 →
      128 < 9 + c.pwd.length + (if c.hidden then c.ssid.length else 0) → datumCodes c = .error .indexOutOfRange) ∧
    (9 + c.pwd.length + c.ssid.length ≤ 255 →
      9 + c.pwd.length + (if c.hidden then c.ssid.length else 0) ≤ 128 → ∃ codes, datumCodes c = .ok codes)

/-- R93, R95: the positions of the value sequence, and the checksum as the XOR of every other header value, every IP and
password byte and every SSID byte, hidden or not. -/
def Obligations.DatumValueSequence : Prop :=
  ∀ c : Credential, c.ip.length = 4 →
    c.values[0]? = some (BitVec.ofNat 8 (9 + c.pwd.length + c.ssid.length)) ∧
    c.values[1]? = some (BitVec.ofNat 8 c.pwd.length) ∧
    c.values[2]? = some (crc8 c.ssid) ∧ c.values[3]? = some (crc8 c.bssid) ∧
    c.values[4]? = some (BitVec.ofNat 8 (9 + c.pwd.length + c.ssid.length) ^^^ BitVec.ofNat 8 c.pwd.length ^^^
      crc8 c.ssid ^^^ crc8 c.bssid ^^^ (c.ip ++ c.pwd ++ c.ssid).foldl (· ^^^ ·) 0) ∧
    (∀ k < 4, c.values[5 + k]? = c.ip[k]?) ∧ (∀ k < c.pwd.length, c.values[9 + k]? = c.pwd[k]?) ∧
    ∀ k, c.values[9 + c.pwd.length + k]? = if c.hidden then c.ssid[k]? else none

/-- R90, R91, R94, R97, R102: a credential whose lengths are in bounds is encoded into `CODE`, `NCODES` becomes `3N`, and
the response carries `totalLen`, `totalXor` and `NCODES`; nothing else changes. -/
def Obligations.DatumEncEncodesCredential : Prop :=
  encode .datumEnc = 0x80000000 ∧
  ∀ s : State, s.err = 0 → s.declaredTotal ≤ 255 → s.declaredGroups ≤ 128 →
    ∃ (codes : List Code) (data : RspData), datumCodes s.credential = .ok codes ∧
      exec .datumEnc s = .next { s with
        code := Memory.writeList s.code 0 codes
        ncodes := BitVec.ofNat 9 (3 * s.declaredGroups)
        rsps := s.rsps ++ [⟨0, data⟩] } ∧
      codes.length = 3 * s.declaredGroups ∧
      data.extractLsb' 0 9 = BitVec.ofNat 9 (3 * s.declaredGroups) ∧ data.extractLsb' 9 7 = 0 ∧
      data.extractLsb' 16 8 = s.credential.totalXor ∧
      data.extractLsb' 24 8 = BitVec.ofNat 8 s.declaredTotal ∧ data.extractLsb' 32 16 = 0

/-- R161, R163, R166, R169: `DATUM.ENC` raises `ValueOutOfRange` exactly where `9 + PWDLEN + SSIDLEN > 255`, else
`IndexOutOfRange` exactly where `N > 128`, and then writes nothing but `ERR`. -/
def Obligations.DatumEncFaultsExactlyOnLengths : Prop :=
  ∀ s : State, s.err = 0 →
    (255 < s.declaredTotal → exec .datumEnc s = .next { s with err := 3, rsps := s.rsps ++ [⟨3, 0⟩] }) ∧
    (s.declaredTotal ≤ 255 → 128 < s.declaredGroups →
      exec .datumEnc s = .next { s with err := 1, rsps := s.rsps ++ [⟨1, 0⟩] }) ∧
    (s.declaredTotal ≤ 255 → s.declaredGroups ≤ 128 → ∃ t, exec .datumEnc s = .next t ∧ t.err = 0)

/-- R107, R34: a successful `DATUM.ENC` leaves `CODE[0..3N-1]` the new list and every entry beyond as it was, where no
request can read it. -/
def Obligations.DatumEncOverwritesCodeFromZero : Prop :=
  ∀ s : State, s.err = 0 → s.declaredTotal ≤ 255 → s.declaredGroups ≤ 128 →
    ∃ (codes : List Code) (t : State), datumCodes s.credential = .ok codes ∧ exec .datumEnc s = .next t ∧
      t.ncodes.toNat = codes.length ∧
      (∀ k (h : k < codes.length), t.codeEntry k = codes[k]) ∧
      (∀ k, codes.length ≤ k → t.codeEntry k = s.codeEntry k) ∧
      (∀ a, t.credByte a = s.credByte a) ∧
      ∀ k : BitVec 9, codes.length ≤ k.toNat →
        exec (.codeRd k) t = .next { t with err := 5, rsps := t.rsps ++ [⟨5, 0⟩] }

/-- R102: running `DATUM.ENC` twice with no write between gives the same `CODE`, `NCODES` and response data. -/
def Obligations.DatumEncIsIdempotent : Prop :=
  ∀ s : State, s.err = 0 → s.declaredTotal ≤ 255 → s.declaredGroups ≤ 128 →
    ∃ (t u : State) (data : RspData), exec .datumEnc s = .next t ∧ exec .datumEnc t = .next u ∧
      u.ncodes = t.ncodes ∧ (∀ k, u.codeEntry k = t.codeEntry k) ∧
      t.rsps = s.rsps ++ [⟨0, data⟩] ∧ u.rsps = t.rsps ++ [⟨0, data⟩]

/-- R93, R95: hiding the SSID only appends groups: the codes of the header, IP and password, the response's `totalLen` and
its `totalXor` do not depend on `HIDDEN`. -/
def Obligations.HiddenFlagOnlyAppendsGroups : Prop :=
  ∀ s : State, s.err = 0 → s.declaredTotal ≤ 255 → State.declaredGroups { s with hidden := 1 } ≤ 128 →
    ∃ (t u : State) (dt du : RspData),
      exec .datumEnc { s with hidden := 0 } = .next t ∧ exec .datumEnc { s with hidden := 1 } = .next u ∧
      t.rsps = s.rsps ++ [⟨0, dt⟩] ∧ u.rsps = s.rsps ++ [⟨0, du⟩] ∧
      dt.extractLsb' 16 32 = du.extractLsb' 16 32 ∧
      u.ncodes.toNat = t.ncodes.toNat + 3 * s.ssidlen.toNat ∧
      ∀ k < t.ncodes.toNat, u.codeEntry k = t.codeEntry k

/-- R33, R37: `DATUM.ENC` ignores every byte of storage its lengths do not declare. -/
def Obligations.DatumEncIgnoresUndeclaredBytes : Prop :=
  ∀ (s t : State) (a : Nat) (b : Byte), a ∉ s.credentialAddresses → exec .datumEnc s = .next t →
    exec .datumEnc { s with cred := Memory.write s.cred a b } = .next { t with cred := Memory.write s.cred a b }

/-- R42, R183: where the host has written every byte its lengths declare, what `DATUM.ENC` does is the same whatever the
unspecified bytes are (another draw gives other ones). -/
def Obligations.WrittenCredentialDecidesDatumEnc : Prop :=
  ∀ (s t : State) (d : Nat), s.credentialWritten = true → exec .datumEnc s = .next t →
    exec .datumEnc { s with draw := d } = .next { t with draw := d }

/-- R170: no error depends on data values other than those named. -/
def Obligations.ErrorsDependOnNamedValuesOnly : Prop :=
  (∀ (s : State) (i : Instr), s.err = 0 →
    (i = .crcRst ∨ i = .crcGet ∨ i = .codeCnt ∨ (∃ b, i = .crcUpd b) ∨ (∃ n, i = .crcLut n) ∨ ∃ c, i = .matGen c) →
    ∃ t, exec i s = .next t ∧ t.err = 0) ∧
  (∀ (s : State) (v w x : Byte), s.err = 0 →
    ∃ t u, exec (.dcEnc v x) s = .next t ∧ exec (.dcEnc w x) s = .next u ∧ t.err = u.err) ∧
  ∀ s r : State, s.err = 0 → r.err = 0 → s.pwdlen = r.pwdlen → s.ssidlen = r.ssidlen → s.hidden = r.hidden →
    ∃ t u, exec .datumEnc s = .next t ∧ exec .datumEnc r = .next u ∧ t.err = u.err

/-- R100, R32, R33: what `CRED.WR` does at every address of the map. -/
def Obligations.CredWrWritesAddressedPlace : Prop :=
  (∀ (a : BitVec 10) (b : Byte), encode (.credWr a b) = 0x60000000 ||| a.setWidth 32 <<< 8 ||| b.setWidth 32) ∧
  ∀ (s : State) (a : BitVec 10) (b : Byte), s.err = 0 →
    exec (.credWr a b) s =
      if a ≤ 0x005 ∨ (0x008 ≤ a ∧ a ≤ 0x00B) ∨ (0x100 ≤ a ∧ a ≤ 0x2FF) then
        .next { s with cred := Memory.write s.cred a.toNat b, rsps := s.rsps ++ [⟨0, 0⟩] }
      else if a = 0x010 then .next { s with pwdlen := b, rsps := s.rsps ++ [⟨0, 0⟩] }
      else if a = 0x011 then .next { s with ssidlen := b, rsps := s.rsps ++ [⟨0, 0⟩] }
      else if a = 0x012 then .next { s with hidden := b.setWidth 1, rsps := s.rsps ++ [⟨0, 0⟩] }
      else .next { s with err := 5, rsps := s.rsps ++ [⟨5, 0⟩] }

/-- R37: a `CRED.WR` to storage changes only the addressed byte. -/
def Obligations.CredWrChangesOneByte : Prop :=
  ∀ (s : State) (a : BitVec 10) (b : Byte), s.err = 0 → isCredStorage a.toNat = true →
    ∃ t, exec (.credWr a b) s = .next t ∧ t.credByte a.toNat = b ∧
      (∀ n, n ≠ a.toNat → t.credByte n = s.credByte n) ∧ (∀ k, t.codeEntry k = s.codeEntry k) ∧
      t = { s with cred := t.cred, rsps := t.rsps }

/-- R101, R32, R33: what `CRED.RD` responds at every address of the map; no side effect. -/
def Obligations.CredRdReadsAddressedPlace : Prop :=
  (∀ a : BitVec 10, encode (.credRd a) = 0x70000000 ||| a.setWidth 32 <<< 8) ∧
  ∀ (s : State) (a : BitVec 10), s.err = 0 →
    exec (.credRd a) s =
      if a ≤ 0x005 ∨ (0x008 ≤ a ∧ a ≤ 0x00B) ∨ (0x100 ≤ a ∧ a ≤ 0x2FF) then
        .next { s with rsps := s.rsps ++ [⟨0, (s.credByte a.toNat).setWidth 48⟩] }
      else if a = 0x010 then .next { s with rsps := s.rsps ++ [⟨0, s.pwdlen.setWidth 48⟩] }
      else if a = 0x011 then .next { s with rsps := s.rsps ++ [⟨0, s.ssidlen.setWidth 48⟩] }
      else if a = 0x012 then .next { s with rsps := s.rsps ++ [⟨0, s.hidden.setWidth 48⟩] }
      else .next { s with err := 5, rsps := s.rsps ++ [⟨5, 0⟩] }

/-- R100, R101: a byte written is the byte read back; of a byte written to `HIDDEN` only bit 0 is kept. -/
def Obligations.CredWrThenCredRdRoundTrip : Prop :=
  ∀ (s : State) (a : BitVec 10) (b : Byte), s.err = 0 → credPlace a ≠ .reserved →
    ∃ t u, exec (.credWr a b) s = .next t ∧ exec (.credRd a) t = .next u ∧
      u.rsps = s.rsps ++ [⟨0, 0⟩, ⟨0, if a = 0x012 then (b &&& 1).setWidth 48 else b.setWidth 48⟩]

/-- R103: an index below `NCODES` responds its entry; every other, and every one from 384 up, is out of
range. In a state the invariant admits the entry is in 40 to 423. -/
def Obligations.CodeRdReadsValidEntry : Prop :=
  (∀ k : BitVec 9, encode (.codeRd k) = 0x90000000 ||| k.setWidth 32) ∧
  (∀ (s : State) (k : BitVec 9), s.err = 0 → k < s.ncodes → k.toNat < 384 →
    exec (.codeRd k) s = .next { s with rsps := s.rsps ++ [⟨0, (s.codeEntry k.toNat).setWidth 48⟩] }) ∧
  (∀ (s : State) (k : BitVec 9), s.err = 0 → (s.ncodes ≤ k ∨ 384 ≤ k.toNat) →
    exec (.codeRd k) s = .next { s with err := 5, rsps := s.rsps ++ [⟨5, 0⟩] }) ∧
  ∀ (s : State) (k : BitVec 9), s.codesLegal → k < s.ncodes →
    40 ≤ (s.codeEntry k.toNat).toNat ∧ (s.codeEntry k.toNat).toNat ≤ 423

/-- R98, R103: in a state the invariant admits, every `CODE.RD` that succeeds responds a code in 40 to 423. -/
def Obligations.CodeRdRespondsLegalCode : Prop :=
  ∀ (s : State) (k : BitVec 9), s.codesLegal → s.err = 0 → k < s.ncodes →
    ∃ data : RspData, exec (.codeRd k) s = .next { s with rsps := s.rsps ++ [⟨0, data⟩] } ∧
      40 ≤ data.toNat ∧ data.toNat ≤ 423 ∧ (k.toNat % 3 = 1 → data.toNat = 296 + k.toNat / 3)

/-- R104: `CODE.CNT` responds `NCODES`, which is 0 after reset and a multiple of 3 between 27 and 384 after a successful
`DATUM.ENC`; in a state the invariant admits it is 0 or such a number. -/
def Obligations.CodeCntRespondsNcodes : Prop :=
  encode .codeCnt = 0xA0000000 ∧
  (∀ s : State, s.err = 0 → exec .codeCnt s = .next { s with rsps := s.rsps ++ [⟨0, s.ncodes.setWidth 48⟩] }) ∧
  State.reset.ncodes = 0 ∧
  (∀ s : State, s.err = 0 → s.declaredTotal ≤ 255 → s.declaredGroups ≤ 128 →
    ∃ t, exec .datumEnc s = .next t ∧ t.err = 0 ∧ t.ncodes.toNat % 3 = 0 ∧ 27 ≤ t.ncodes.toNat ∧
      t.ncodes.toNat ≤ 384) ∧
  ∀ s : State, s.codesLegal →
    s.ncodes = 0 ∨ (s.ncodes.toNat % 3 = 0 ∧ 27 ≤ s.ncodes.toNat ∧ s.ncodes.toNat ≤ 384)

/-- R120, R121, R122: every 16-bit code is materialized as one datagram of exactly that many bytes. -/
def Obligations.MatGenEmitsOneDatagram : Prop :=
  (∀ c : Code, encode (.matGen c) = 0xB0000000 ||| c.setWidth 32) ∧
  ∀ (s : State) (c : Code), s.err = 0 →
    ∃ datagram : List Byte, exec (.matGen c) s = .next { s with
        out := s.out ++ [datagram]
        rsps := s.rsps ++ [⟨0, c.setWidth 48⟩] } ∧
      datagram.length = c.toNat ∧ ∀ b ∈ datagram, b = Config.fill

/-- R19: `MAT.GEN` appends exactly one datagram, no other request, legal or not, changes `OUT` (a reset empties it), nothing
in the block reads it, and it is empty after reset. -/
def Obligations.OnlyMatGenTouchesOut : Prop :=
  (∀ s t : State, step s = .next t → t.out ≠ s.out →
    (∃ abandoned rest, s.input = .reset abandoned :: rest ∧ t.out = []) ∨
    ∃ c rest d, s.input = .request (encode (.matGen c)) :: rest ∧ s.err = 0 ∧ t.out = s.out ++ [d] ∧
      d.length = c.toNat) ∧
  (∀ (i : Instr) (s t : State), exec i s = .next t → t.out ≠ s.out →
    ∃ c d, i = .matGen c ∧ s.err = 0 ∧ t.out = s.out ++ [d] ∧ d.length = c.toNat) ∧
  (∀ (c : Code) (s : State), s.err = 0 → ∃ t d, exec (.matGen c) s = .next t ∧ t.out = s.out ++ [d]) ∧
  (∀ (i : Instr) (s t : State) (o : List (List Byte)), exec i s = .next t →
    ∃ new, t.out = s.out ++ new ∧ exec i { s with out := o } = .next { t with out := o ++ new }) ∧
  State.reset.out = []

/-- R10, R18, R30: each register, store and history is changed by no operation but those the spec names for it. -/
def Obligations.OperationsWriteOnlyWhatTheyName : Prop :=
  ∀ (i : Instr) (s t : State), exec i s = .next t →
    (t.run ≠ s.run → i = .crcRst ∨ ∃ b, i = .crcUpd b) ∧
    (t.pwdlen ≠ s.pwdlen → ∃ b, i = .credWr 0x010 b) ∧
    (t.ssidlen ≠ s.ssidlen → ∃ b, i = .credWr 0x011 b) ∧
    (t.hidden ≠ s.hidden → ∃ b, i = .credWr 0x012 b) ∧
    (t.ncodes ≠ s.ncodes → i = .datumEnc) ∧
    (∀ n, t.credByte n ≠ s.credByte n → ∃ a b, i = .credWr a b ∧ a.toNat = n) ∧
    (∀ k, t.codeEntry k ≠ s.codeEntry k → i = .datumEnc) ∧
    (t.out ≠ s.out → ∃ c, i = .matGen c) ∧
    t.input = s.input ∧ t.draw = s.draw

/-- R37, R68, R69, R82, R101, R103, R104: the frame of the operations that only read: in every state, every register but
`ERR`, every byte of both stores and the output history stay as they were. -/
def Obligations.ReadingOperationsFrame : Prop :=
  ∀ (i : Instr) (s t : State), readsOnly i = true → exec i s = .next t →
    t = { s with err := t.err, rsps := t.rsps } ∧ (∀ n, t.credByte n = s.credByte n) ∧
      ∀ k, t.codeEntry k = s.codeEntry k

/-- R66, R67, R121: the frame of the operations that write one register or the output history: everything but `RUN` for
the first two, everything but `OUT` for the third, stays as it was. -/
def Obligations.CrcAndMatGenFrame : Prop :=
  ∀ (s t : State),
    (exec .crcRst s = .next t → t = { s with run := t.run, rsps := t.rsps }) ∧
    (∀ b, exec (.crcUpd b) s = .next t → t = { s with run := t.run, rsps := t.rsps }) ∧
    (∀ c, exec (.matGen c) s = .next t → t = { s with out := t.out, rsps := t.rsps })

/-- R165, R161, R164: the operations that raise each error, exactly. -/
def Obligations.RaisedErrorsByOperation : Prop :=
  ∀ (i : Instr) (s t : State), s.err = 0 → exec i s = .next t →
    (t.err = 5 ↔ (∃ a, (i = .credRd a ∨ ∃ b, i = .credWr a b) ∧ credPlace a = .reserved) ∨
      ∃ k, i = .codeRd k ∧ (s.ncodes ≤ k ∨ 384 ≤ k.toNat)) ∧
    (t.err = 1 ↔ (∃ v x, i = .dcEnc v x ∧ 127 < x.toNat) ∨
      (i = .datumEnc ∧ 128 < s.declaredGroups ∧ s.declaredTotal ≤ 255)) ∧
    (t.err = 3 ↔ i = .datumEnc ∧ 255 < s.declaredTotal) ∧ t.err ≠ 2 ∧ t.err ≠ 4

/-- R52: the line of an operation assembles to that operation alone. -/
def Obligations.AssembleOfLineIsOperation : Prop :=
  ∀ i : Instr, assemble i.toSource = .ok [i]

/-- R53, R134: the requests of `CRED.PWD` and of `CRED.SSID` load the bytes and their number, and change nothing else. -/
def Obligations.LoadingPasswordAndSsid : Prop :=
  ∀ (s : State) (bytes : List Byte), s.err = 0 → bytes.length ≤ 255 →
    (∃ t, Sys2Proof.core.run (bytes.length + 1)
          (s.withInput (hostInputs (.credPwd (bytes.map BitVec.toNat)) ++ s.input)) = .next t ∧
      t = { s with pwdlen := BitVec.ofNat 8 bytes.length, cred := t.cred, rsps := t.rsps } ∧
      t.credential.pwd = bytes ∧ ∀ a, (a < 0x100 ∨ 0x100 + bytes.length ≤ a) → t.credByte a = s.credByte a) ∧
    ∃ t, Sys2Proof.core.run (bytes.length + 1)
          (s.withInput (hostInputs (.credSsid (bytes.map BitVec.toNat)) ++ s.input)) = .next t ∧
      t = { s with ssidlen := BitVec.ofNat 8 bytes.length, cred := t.cred, rsps := t.rsps } ∧
      t.credential.ssid = bytes ∧ ∀ a, (a < 0x200 ∨ 0x200 + bytes.length ≤ a) → t.credByte a = s.credByte a

/-- R53, R32, R15: the requests of `CRED.BSSID`, `CRED.IP` and `CRED.HID` load the six bytes at 0x000 to 0x005, the four at
0x008 to 0x00B and the flag, as the credential's own, and change nothing else. -/
def Obligations.LoadingBssidIpAndHidden : Prop :=
  (∀ (s : State) (bytes : List Byte), s.err = 0 → bytes.length = 6 →
    ∃ t, Sys2Proof.core.run 6
          (s.withInput (hostInputs (.credBssid (bytes.map BitVec.toNat)) ++ s.input)) = .next t ∧
      t = { s with cred := t.cred, rsps := s.rsps ++ List.replicate 6 ⟨0, 0⟩ } ∧ t.credential.bssid = bytes ∧
      (∀ k < 6, some (t.credByte (0x000 + k)) = bytes[k]?) ∧ ∀ a, 0x005 < a → t.credByte a = s.credByte a) ∧
  (∀ (s : State) (bytes : List Byte), s.err = 0 → bytes.length = 4 →
    ∃ t, Sys2Proof.core.run 4
          (s.withInput (hostInputs (.credIp (bytes.map BitVec.toNat)) ++ s.input)) = .next t ∧
      t = { s with cred := t.cred, rsps := s.rsps ++ List.replicate 4 ⟨0, 0⟩ } ∧ t.credential.ip = bytes ∧
      (∀ k < 4, some (t.credByte (0x008 + k)) = bytes[k]?) ∧
      ∀ a, (a < 0x008 ∨ 0x00B < a) → t.credByte a = s.credByte a) ∧
  ∀ (s : State) (h : BitVec 1), s.err = 0 →
    ∃ t, Sys2Proof.core.run 1 (s.withInput (hostInputs (.credHid h.toNat) ++ s.input)) = .next t ∧
      t = { s with hidden := h, rsps := s.rsps ++ [⟨0, 0⟩] } ∧ (t.credential.hidden = true ↔ h = 1)

/-- R90, R32, R37: where each field of the record `DATUM.ENC` encodes stands in the store, and that the addresses the record
is read from are these and no others. -/
def Obligations.CredentialReadsTheAddressedBytes : Prop :=
  ∀ s : State,
    s.credential.bssid = [s.credByte 0x000, s.credByte 0x001, s.credByte 0x002, s.credByte 0x003, s.credByte 0x004,
      s.credByte 0x005] ∧
    s.credential.ip = [s.credByte 0x008, s.credByte 0x009, s.credByte 0x00A, s.credByte 0x00B] ∧
    s.credential.pwd.length = s.pwdlen.toNat ∧
    (∀ k < s.pwdlen.toNat, s.credential.pwd[k]? = some (s.credByte (0x100 + k))) ∧
    s.credential.ssid.length = s.ssidlen.toNat ∧
    (∀ k < s.ssidlen.toNat, s.credential.ssid[k]? = some (s.credByte (0x200 + k))) ∧
    (s.credential.hidden = true ↔ s.hidden = 1) ∧
    ∀ a : Nat, a ∈ s.credentialAddresses ↔
      a ≤ 0x005 ∨ (0x008 ≤ a ∧ a ≤ 0x00B) ∨ (0x100 ≤ a ∧ a < 0x100 + s.pwdlen.toNat) ∨
        (0x200 ≤ a ∧ a < 0x200 + s.ssidlen.toNat)
end

