-- ==== Sys2Proof/Laws/Memory.lean ====
section
/-! SUPPORT. The laws of a store: a read after a write, and that every write keeps the canonical form. -/

namespace Sys2Proof.Machine

variable {w : Nat}

@[simp] theorem Memory.find_nil (a : Nat) : Memory.find ([] : Memory w) a = none := rfl

theorem Memory.find_write_same (m : Memory w) (a : Nat) (e : BitVec w) :
    Memory.find (Memory.write m a e) a = some e := by
  induction m with
  | nil => simp [Memory.write, Memory.find]
  | cons c rest ih =>
    obtain ⟨k, old⟩ := c
    unfold Memory.write
    split_ifs with h₁ h₂
    · simp [Memory.find]
    · simp [Memory.find]
    · simp [Memory.find, Ne.symm h₂, ih]

theorem Memory.find_write_other (m : Memory w) {a b : Nat} (e : BitVec w) (h : b ≠ a) :
    Memory.find (Memory.write m a e) b = Memory.find m b := by
  induction m with
  | nil => simp [Memory.write, Memory.find, Ne.symm h]
  | cons c rest ih =>
    obtain ⟨k, old⟩ := c
    unfold Memory.write
    split_ifs with h₁ h₂
    · simp [Memory.find, Ne.symm h]
    · subst h₂; simp [Memory.find, Ne.symm h]
    · simp [Memory.find, ih]

@[simp] theorem Memory.read_write_same (atReset : Nat → BitVec w) (m : Memory w) (a : Nat) (e : BitVec w) :
    Memory.read atReset (Memory.write m a e) a = e := by
  simp [Memory.read, Memory.find_write_same]

theorem Memory.read_write_other (atReset : Nat → BitVec w) (m : Memory w) {a b : Nat} (e : BitVec w) (h : b ≠ a) :
    Memory.read atReset (Memory.write m a e) b = Memory.read atReset m b := by
  simp [Memory.read, Memory.find_write_other m e h]

/-- Below or beyond the addresses written, a store holds what it held. -/
theorem Memory.find_writeList_outside (m : Memory w) (a : Nat) (es : List (BitVec w)) {b : Nat}
    (h : b < a ∨ a + es.length ≤ b) : Memory.find (Memory.writeList m a es) b = Memory.find m b := by
  induction es generalizing m a with
  | nil => rfl
  | cons e rest ih =>
    simp only [List.length_cons] at h
    rw [Memory.writeList, ih _ _ (by omega), Memory.find_write_other _ _ (by omega)]

/-- At the addresses written, a store holds the elements written. -/
theorem Memory.find_writeList_inside (m : Memory w) (a : Nat) (es : List (BitVec w)) (j : Nat) (h : j < es.length) :
    Memory.find (Memory.writeList m a es) (a + j) = some es[j] := by
  induction es generalizing m a j with
  | nil => simp at h
  | cons e rest ih =>
    rw [Memory.writeList]
    cases j with
    | zero =>
      rw [Memory.find_writeList_outside _ _ _ (by omega)]
      exact Memory.find_write_same m a e
    | succ j =>
      have := ih (Memory.write m a e) (a + 1) j (by simpa using h)
      rw [show a + (j + 1) = a + 1 + j by omega, this]
      rfl

/-- Every address of a store after a write is the one written or an old one. -/
theorem Memory.mem_write {m : Memory w} {a : Nat} {e : BitVec w} {c : Nat × BitVec w}
    (h : c ∈ Memory.write m a e) : c.1 = a ∨ c ∈ m := by
  induction m with
  | nil => simp_all [Memory.write]
  | cons x rest ih =>
    obtain ⟨k, old⟩ := x
    unfold Memory.write at h
    split_ifs at h with h₁ h₂
    · rcases List.mem_cons.1 h with rfl | h
      · exact .inl rfl
      · exact .inr h
    · rcases List.mem_cons.1 h with rfl | h
      · exact .inl rfl
      · exact .inr (List.mem_cons_of_mem _ h)
    · rcases List.mem_cons.1 h with rfl | h
      · exact .inr List.mem_cons_self
      · exact (ih h).imp_right (List.mem_cons_of_mem _)

theorem Memory.rising_write {m : Memory w} (h : Memory.rising m = true) (a : Nat) (e : BitVec w) :
    Memory.rising (Memory.write m a e) = true := by
  induction m with
  | nil => rfl
  | cons x rest ih =>
    obtain ⟨k, old⟩ := x
    simp only [Memory.rising, Bool.and_eq_true, List.all_eq_true, decide_eq_true_eq] at h
    unfold Memory.write
    split_ifs with h₁ h₂
    · simp only [Memory.rising, Bool.and_eq_true, List.all_eq_true, decide_eq_true_eq, List.forall_mem_cons]
      exact ⟨⟨h₁, fun c hc => Nat.lt_trans h₁ (h.1 c hc)⟩, h.1, h.2⟩
    · simp only [Memory.rising, Bool.and_eq_true, List.all_eq_true, decide_eq_true_eq]
      exact ⟨fun c hc => h₂ ▸ h.1 c hc, h.2⟩
    · simp only [Memory.rising, Bool.and_eq_true, List.all_eq_true, decide_eq_true_eq]
      refine ⟨fun c hc => ?_, ih h.2⟩
      rcases Memory.mem_write hc with h₃ | h₃
      · omega
      · exact h.1 c h₃

/-- A write at an address of the map keeps the canonical form. -/
theorem Memory.wf_write {inMap : Nat → Bool} {m : Memory w} (h : Memory.wf inMap m = true) {a : Nat}
    (ha : inMap a = true) (e : BitVec w) : Memory.wf inMap (Memory.write m a e) = true := by
  simp only [Memory.wf, Bool.and_eq_true, List.all_eq_true] at h ⊢
  refine ⟨Memory.rising_write h.1 a e, fun c hc => ?_⟩
  rcases Memory.mem_write hc with h₁ | h₁
  · rw [h₁, ha]
  · exact h.2 c h₁

/-- Writes at consecutive addresses of the map keep the canonical form. -/
theorem Memory.wf_writeList {inMap : Nat → Bool} {m : Memory w} (h : Memory.wf inMap m = true) (a : Nat)
    (es : List (BitVec w)) (ha : ∀ j < es.length, inMap (a + j) = true) :
    Memory.wf inMap (Memory.writeList m a es) = true := by
  induction es generalizing m a with
  | nil => exact h
  | cons e rest ih =>
    refine ih (Memory.wf_write h (ha 0 (by simp)) e) (a + 1) fun j hj => ?_
    have := ha (j + 1) (by simpa using hj)
    rwa [show a + (j + 1) = a + 1 + j by omega] at this

/-- In canonical form two stores with the same elements written are the same data. -/
theorem Memory.eq_of_find_eq {m n : Memory w} (hm : Memory.rising m = true) (hn : Memory.rising n = true)
    (h : ∀ a, Memory.find m a = Memory.find n a) : m = n := by
  have below : ∀ {k : Nat} {r : Memory w}, (∀ c ∈ r, k < c.1) → Memory.find r k = none := by
    intro k r hr
    induction r with
    | nil => rfl
    | cons c rest ih =>
      obtain ⟨j, e⟩ := c
      have hj : k < j := hr (j, e) List.mem_cons_self
      rw [Memory.find, if_neg (by omega), ih fun c hc => hr c (List.mem_cons_of_mem _ hc)]
  induction m generalizing n with
  | nil =>
    cases n with
    | nil => rfl
    | cons c rest => obtain ⟨k, e⟩ := c; simpa [Memory.find] using h k
  | cons c rest ih =>
    obtain ⟨k, e⟩ := c
    cases n with
    | nil => simpa [Memory.find] using h k
    | cons c' rest' =>
      obtain ⟨k', e'⟩ := c'
      simp only [Memory.rising, Bool.and_eq_true, List.all_eq_true, decide_eq_true_eq] at hm hn
      have hk := h k
      have hk' := h k'
      simp only [Memory.find, if_true] at hk hk'
      have hkk : k = k' := by
        rcases Nat.lt_trichotomy k k' with hlt | heq | hgt
        · rw [if_neg (by omega), below fun c hc => Nat.lt_trans hlt (hn.1 c hc)] at hk
          simp at hk
        · exact heq
        · rw [if_neg (by omega), below fun c hc => Nat.lt_trans hgt (hm.1 c hc)] at hk'
          simp at hk'
      subst hkk
      rw [if_pos rfl] at hk
      obtain rfl : e = e' := Option.some.inj hk
      refine congrArg _ (ih hm.2 hn.2 fun a => ?_)
      by_cases ha : k = a
      · subst ha; rw [below hm.1, below hn.1]
      · simpa [Memory.find, ha] using h a

end Sys2Proof.Machine
end

