-- ==== Sys2Proof/Laws/State.lean ====
section
/-! SUPPORT. One lemma per field per update of the state, and the reads of a store after an update: no proof need unfold a
record update. -/

namespace Sys2Proof.Machine

variable (s : State)

section

-- what `State.respond` leaves in each field

@[simp] theorem State.respond_run (data : RspData) : (s.respond data).run = s.run := rfl
@[simp] theorem State.respond_pwdlen (data : RspData) : (s.respond data).pwdlen = s.pwdlen := rfl
@[simp] theorem State.respond_ssidlen (data : RspData) : (s.respond data).ssidlen = s.ssidlen := rfl
@[simp] theorem State.respond_hidden (data : RspData) : (s.respond data).hidden = s.hidden := rfl
@[simp] theorem State.respond_ncodes (data : RspData) : (s.respond data).ncodes = s.ncodes := rfl
@[simp] theorem State.respond_err (data : RspData) : (s.respond data).err = s.err := rfl
@[simp] theorem State.respond_cred (data : RspData) : (s.respond data).cred = s.cred := rfl
@[simp] theorem State.respond_code (data : RspData) : (s.respond data).code = s.code := rfl
@[simp] theorem State.respond_out (data : RspData) : (s.respond data).out = s.out := rfl
@[simp] theorem State.respond_rsps (data : RspData) : (s.respond data).rsps = s.rsps ++ [{ err := 0, data := data }] := rfl
@[simp] theorem State.respond_input (data : RspData) : (s.respond data).input = s.input := rfl
@[simp] theorem State.respond_draw (data : RspData) : (s.respond data).draw = s.draw := rfl
@[simp] theorem State.respond_credByte (data : RspData) (a : Nat) : (s.respond data).credByte a = s.credByte a := rfl
@[simp] theorem State.respond_codeEntry (data : RspData) (k : Nat) : (s.respond data).codeEntry k = s.codeEntry k := rfl
@[simp] theorem State.respond_credBytes (data : RspData) (base n : Nat) : (s.respond data).credBytes base n = s.credBytes base n := rfl

end

section

-- what `State.raise` leaves in each field

@[simp] theorem State.raise_run (e : Error) : (s.raise e).run = s.run := rfl
@[simp] theorem State.raise_pwdlen (e : Error) : (s.raise e).pwdlen = s.pwdlen := rfl
@[simp] theorem State.raise_ssidlen (e : Error) : (s.raise e).ssidlen = s.ssidlen := rfl
@[simp] theorem State.raise_hidden (e : Error) : (s.raise e).hidden = s.hidden := rfl
@[simp] theorem State.raise_ncodes (e : Error) : (s.raise e).ncodes = s.ncodes := rfl
@[simp] theorem State.raise_err (e : Error) : (s.raise e).err = e.code := rfl
@[simp] theorem State.raise_cred (e : Error) : (s.raise e).cred = s.cred := rfl
@[simp] theorem State.raise_code (e : Error) : (s.raise e).code = s.code := rfl
@[simp] theorem State.raise_out (e : Error) : (s.raise e).out = s.out := rfl
@[simp] theorem State.raise_rsps (e : Error) : (s.raise e).rsps = s.rsps ++ [{ err := e.code, data := 0 }] := rfl
@[simp] theorem State.raise_input (e : Error) : (s.raise e).input = s.input := rfl
@[simp] theorem State.raise_draw (e : Error) : (s.raise e).draw = s.draw := rfl
@[simp] theorem State.raise_credByte (e : Error) (a : Nat) : (s.raise e).credByte a = s.credByte a := rfl
@[simp] theorem State.raise_codeEntry (e : Error) (k : Nat) : (s.raise e).codeEntry k = s.codeEntry k := rfl
@[simp] theorem State.raise_credBytes (e : Error) (base n : Nat) : (s.raise e).credBytes base n = s.credBytes base n := rfl

end

section

-- what `State.respondHalted` leaves in each field

@[simp] theorem State.respondHalted_run : (s.respondHalted).run = s.run := rfl
@[simp] theorem State.respondHalted_pwdlen : (s.respondHalted).pwdlen = s.pwdlen := rfl
@[simp] theorem State.respondHalted_ssidlen : (s.respondHalted).ssidlen = s.ssidlen := rfl
@[simp] theorem State.respondHalted_hidden : (s.respondHalted).hidden = s.hidden := rfl
@[simp] theorem State.respondHalted_ncodes : (s.respondHalted).ncodes = s.ncodes := rfl
@[simp] theorem State.respondHalted_err : (s.respondHalted).err = s.err := rfl
@[simp] theorem State.respondHalted_cred : (s.respondHalted).cred = s.cred := rfl
@[simp] theorem State.respondHalted_code : (s.respondHalted).code = s.code := rfl
@[simp] theorem State.respondHalted_out : (s.respondHalted).out = s.out := rfl
@[simp] theorem State.respondHalted_rsps : (s.respondHalted).rsps = s.rsps ++ [{ err := s.err, data := 0 }] := rfl
@[simp] theorem State.respondHalted_input : (s.respondHalted).input = s.input := rfl
@[simp] theorem State.respondHalted_draw : (s.respondHalted).draw = s.draw := rfl
@[simp] theorem State.respondHalted_credByte (a : Nat) : (s.respondHalted).credByte a = s.credByte a := rfl
@[simp] theorem State.respondHalted_codeEntry (k : Nat) : (s.respondHalted).codeEntry k = s.codeEntry k := rfl
@[simp] theorem State.respondHalted_credBytes (base n : Nat) : (s.respondHalted).credBytes base n = s.credBytes base n := rfl

end

section

-- what `State.emit` leaves in each field

@[simp] theorem State.emit_run (datagram : List Byte) : (s.emit datagram).run = s.run := rfl
@[simp] theorem State.emit_pwdlen (datagram : List Byte) : (s.emit datagram).pwdlen = s.pwdlen := rfl
@[simp] theorem State.emit_ssidlen (datagram : List Byte) : (s.emit datagram).ssidlen = s.ssidlen := rfl
@[simp] theorem State.emit_hidden (datagram : List Byte) : (s.emit datagram).hidden = s.hidden := rfl
@[simp] theorem State.emit_ncodes (datagram : List Byte) : (s.emit datagram).ncodes = s.ncodes := rfl
@[simp] theorem State.emit_err (datagram : List Byte) : (s.emit datagram).err = s.err := rfl
@[simp] theorem State.emit_cred (datagram : List Byte) : (s.emit datagram).cred = s.cred := rfl
@[simp] theorem State.emit_code (datagram : List Byte) : (s.emit datagram).code = s.code := rfl
@[simp] theorem State.emit_out (datagram : List Byte) : (s.emit datagram).out = s.out ++ [datagram] := rfl
@[simp] theorem State.emit_rsps (datagram : List Byte) : (s.emit datagram).rsps = s.rsps := rfl
@[simp] theorem State.emit_input (datagram : List Byte) : (s.emit datagram).input = s.input := rfl
@[simp] theorem State.emit_draw (datagram : List Byte) : (s.emit datagram).draw = s.draw := rfl
@[simp] theorem State.emit_credByte (datagram : List Byte) (a : Nat) : (s.emit datagram).credByte a = s.credByte a := rfl
@[simp] theorem State.emit_codeEntry (datagram : List Byte) (k : Nat) : (s.emit datagram).codeEntry k = s.codeEntry k := rfl
@[simp] theorem State.emit_credBytes (datagram : List Byte) (base n : Nat) : (s.emit datagram).credBytes base n = s.credBytes base n := rfl

end

section

-- what `State.afterReset` leaves in each field

@[simp] theorem State.afterReset_run : (s.afterReset).run = 0 := rfl
@[simp] theorem State.afterReset_pwdlen : (s.afterReset).pwdlen = 0 := rfl
@[simp] theorem State.afterReset_ssidlen : (s.afterReset).ssidlen = 0 := rfl
@[simp] theorem State.afterReset_hidden : (s.afterReset).hidden = 0 := rfl
@[simp] theorem State.afterReset_ncodes : (s.afterReset).ncodes = 0 := rfl
@[simp] theorem State.afterReset_err : (s.afterReset).err = 0 := rfl
@[simp] theorem State.afterReset_cred : (s.afterReset).cred = [] := rfl
@[simp] theorem State.afterReset_code : (s.afterReset).code = [] := rfl
@[simp] theorem State.afterReset_out : (s.afterReset).out = [] := rfl
@[simp] theorem State.afterReset_rsps : (s.afterReset).rsps = [] := rfl
@[simp] theorem State.afterReset_input : (s.afterReset).input = s.input := rfl
@[simp] theorem State.afterReset_draw : (s.afterReset).draw = s.draw + 1 := rfl
@[simp] theorem State.afterReset_credByte (a : Nat) : (s.afterReset).credByte a = Config.credAtReset (s.draw + 1) a := rfl
@[simp] theorem State.afterReset_codeEntry (k : Nat) : (s.afterReset).codeEntry k = Config.codeAtReset (s.draw + 1) k := rfl

end

section

-- what `State.presentFirst` leaves in each field

@[simp] theorem State.presentFirst_run (i : HostInput) : (s.presentFirst i).run = s.run := rfl
@[simp] theorem State.presentFirst_pwdlen (i : HostInput) : (s.presentFirst i).pwdlen = s.pwdlen := rfl
@[simp] theorem State.presentFirst_ssidlen (i : HostInput) : (s.presentFirst i).ssidlen = s.ssidlen := rfl
@[simp] theorem State.presentFirst_hidden (i : HostInput) : (s.presentFirst i).hidden = s.hidden := rfl
@[simp] theorem State.presentFirst_ncodes (i : HostInput) : (s.presentFirst i).ncodes = s.ncodes := rfl
@[simp] theorem State.presentFirst_err (i : HostInput) : (s.presentFirst i).err = s.err := rfl
@[simp] theorem State.presentFirst_cred (i : HostInput) : (s.presentFirst i).cred = s.cred := rfl
@[simp] theorem State.presentFirst_code (i : HostInput) : (s.presentFirst i).code = s.code := rfl
@[simp] theorem State.presentFirst_out (i : HostInput) : (s.presentFirst i).out = s.out := rfl
@[simp] theorem State.presentFirst_rsps (i : HostInput) : (s.presentFirst i).rsps = s.rsps := rfl
@[simp] theorem State.presentFirst_input (i : HostInput) : (s.presentFirst i).input = i :: s.input := rfl
@[simp] theorem State.presentFirst_draw (i : HostInput) : (s.presentFirst i).draw = s.draw := rfl
@[simp] theorem State.presentFirst_credByte (i : HostInput) (a : Nat) : (s.presentFirst i).credByte a = s.credByte a := rfl
@[simp] theorem State.presentFirst_codeEntry (i : HostInput) (k : Nat) : (s.presentFirst i).codeEntry k = s.codeEntry k := rfl
@[simp] theorem State.presentFirst_credBytes (i : HostInput) (base n : Nat) : (s.presentFirst i).credBytes base n = s.credBytes base n := rfl

end

section

-- what `State.withInput` leaves in each field

@[simp] theorem State.withInput_run (rest : List HostInput) : (s.withInput rest).run = s.run := rfl
@[simp] theorem State.withInput_pwdlen (rest : List HostInput) : (s.withInput rest).pwdlen = s.pwdlen := rfl
@[simp] theorem State.withInput_ssidlen (rest : List HostInput) : (s.withInput rest).ssidlen = s.ssidlen := rfl
@[simp] theorem State.withInput_hidden (rest : List HostInput) : (s.withInput rest).hidden = s.hidden := rfl
@[simp] theorem State.withInput_ncodes (rest : List HostInput) : (s.withInput rest).ncodes = s.ncodes := rfl
@[simp] theorem State.withInput_err (rest : List HostInput) : (s.withInput rest).err = s.err := rfl
@[simp] theorem State.withInput_cred (rest : List HostInput) : (s.withInput rest).cred = s.cred := rfl
@[simp] theorem State.withInput_code (rest : List HostInput) : (s.withInput rest).code = s.code := rfl
@[simp] theorem State.withInput_out (rest : List HostInput) : (s.withInput rest).out = s.out := rfl
@[simp] theorem State.withInput_rsps (rest : List HostInput) : (s.withInput rest).rsps = s.rsps := rfl
@[simp] theorem State.withInput_input (rest : List HostInput) : (s.withInput rest).input = rest := rfl
@[simp] theorem State.withInput_draw (rest : List HostInput) : (s.withInput rest).draw = s.draw := rfl
@[simp] theorem State.withInput_credByte (rest : List HostInput) (a : Nat) : (s.withInput rest).credByte a = s.credByte a := rfl
@[simp] theorem State.withInput_codeEntry (rest : List HostInput) (k : Nat) : (s.withInput rest).codeEntry k = s.codeEntry k := rfl
@[simp] theorem State.withInput_credBytes (rest : List HostInput) (base n : Nat) :
    (s.withInput rest).credBytes base n = s.credBytes base n := rfl
@[simp] theorem State.withInput_credential (rest : List HostInput) :
    (s.withInput rest).credential = s.credential := rfl

end

section

-- what `State.setRun` leaves in each field

@[simp] theorem State.setRun_run (v : Byte) : (s.setRun v).run = v := rfl
@[simp] theorem State.setRun_pwdlen (v : Byte) : (s.setRun v).pwdlen = s.pwdlen := rfl
@[simp] theorem State.setRun_ssidlen (v : Byte) : (s.setRun v).ssidlen = s.ssidlen := rfl
@[simp] theorem State.setRun_hidden (v : Byte) : (s.setRun v).hidden = s.hidden := rfl
@[simp] theorem State.setRun_ncodes (v : Byte) : (s.setRun v).ncodes = s.ncodes := rfl
@[simp] theorem State.setRun_err (v : Byte) : (s.setRun v).err = s.err := rfl
@[simp] theorem State.setRun_cred (v : Byte) : (s.setRun v).cred = s.cred := rfl
@[simp] theorem State.setRun_code (v : Byte) : (s.setRun v).code = s.code := rfl
@[simp] theorem State.setRun_out (v : Byte) : (s.setRun v).out = s.out := rfl
@[simp] theorem State.setRun_rsps (v : Byte) : (s.setRun v).rsps = s.rsps := rfl
@[simp] theorem State.setRun_input (v : Byte) : (s.setRun v).input = s.input := rfl
@[simp] theorem State.setRun_draw (v : Byte) : (s.setRun v).draw = s.draw := rfl
@[simp] theorem State.setRun_credByte (v : Byte) (k : Nat) : (s.setRun v).credByte k = s.credByte k := rfl
@[simp] theorem State.setRun_credBytes (v : Byte) (base len : Nat) :
    (s.setRun v).credBytes base len = s.credBytes base len := rfl
@[simp] theorem State.setRun_codeEntry (v : Byte) (k : Nat) : (s.setRun v).codeEntry k = s.codeEntry k := rfl

end

section

-- what `State.setPwdlen` leaves in each field

@[simp] theorem State.setPwdlen_run (v : Byte) : (s.setPwdlen v).run = s.run := rfl
@[simp] theorem State.setPwdlen_pwdlen (v : Byte) : (s.setPwdlen v).pwdlen = v := rfl
@[simp] theorem State.setPwdlen_ssidlen (v : Byte) : (s.setPwdlen v).ssidlen = s.ssidlen := rfl
@[simp] theorem State.setPwdlen_hidden (v : Byte) : (s.setPwdlen v).hidden = s.hidden := rfl
@[simp] theorem State.setPwdlen_ncodes (v : Byte) : (s.setPwdlen v).ncodes = s.ncodes := rfl
@[simp] theorem State.setPwdlen_err (v : Byte) : (s.setPwdlen v).err = s.err := rfl
@[simp] theorem State.setPwdlen_cred (v : Byte) : (s.setPwdlen v).cred = s.cred := rfl
@[simp] theorem State.setPwdlen_code (v : Byte) : (s.setPwdlen v).code = s.code := rfl
@[simp] theorem State.setPwdlen_out (v : Byte) : (s.setPwdlen v).out = s.out := rfl
@[simp] theorem State.setPwdlen_rsps (v : Byte) : (s.setPwdlen v).rsps = s.rsps := rfl
@[simp] theorem State.setPwdlen_input (v : Byte) : (s.setPwdlen v).input = s.input := rfl
@[simp] theorem State.setPwdlen_draw (v : Byte) : (s.setPwdlen v).draw = s.draw := rfl
@[simp] theorem State.setPwdlen_credByte (v : Byte) (k : Nat) : (s.setPwdlen v).credByte k = s.credByte k := rfl
@[simp] theorem State.setPwdlen_credBytes (v : Byte) (base len : Nat) :
    (s.setPwdlen v).credBytes base len = s.credBytes base len := rfl
@[simp] theorem State.setPwdlen_codeEntry (v : Byte) (k : Nat) : (s.setPwdlen v).codeEntry k = s.codeEntry k := rfl

end

section

-- what `State.setSsidlen` leaves in each field

@[simp] theorem State.setSsidlen_run (v : Byte) : (s.setSsidlen v).run = s.run := rfl
@[simp] theorem State.setSsidlen_pwdlen (v : Byte) : (s.setSsidlen v).pwdlen = s.pwdlen := rfl
@[simp] theorem State.setSsidlen_ssidlen (v : Byte) : (s.setSsidlen v).ssidlen = v := rfl
@[simp] theorem State.setSsidlen_hidden (v : Byte) : (s.setSsidlen v).hidden = s.hidden := rfl
@[simp] theorem State.setSsidlen_ncodes (v : Byte) : (s.setSsidlen v).ncodes = s.ncodes := rfl
@[simp] theorem State.setSsidlen_err (v : Byte) : (s.setSsidlen v).err = s.err := rfl
@[simp] theorem State.setSsidlen_cred (v : Byte) : (s.setSsidlen v).cred = s.cred := rfl
@[simp] theorem State.setSsidlen_code (v : Byte) : (s.setSsidlen v).code = s.code := rfl
@[simp] theorem State.setSsidlen_out (v : Byte) : (s.setSsidlen v).out = s.out := rfl
@[simp] theorem State.setSsidlen_rsps (v : Byte) : (s.setSsidlen v).rsps = s.rsps := rfl
@[simp] theorem State.setSsidlen_input (v : Byte) : (s.setSsidlen v).input = s.input := rfl
@[simp] theorem State.setSsidlen_draw (v : Byte) : (s.setSsidlen v).draw = s.draw := rfl
@[simp] theorem State.setSsidlen_credByte (v : Byte) (k : Nat) : (s.setSsidlen v).credByte k = s.credByte k := rfl
@[simp] theorem State.setSsidlen_credBytes (v : Byte) (base len : Nat) :
    (s.setSsidlen v).credBytes base len = s.credBytes base len := rfl
@[simp] theorem State.setSsidlen_codeEntry (v : Byte) (k : Nat) : (s.setSsidlen v).codeEntry k = s.codeEntry k := rfl

end

section

-- what `State.setHidden` leaves in each field

@[simp] theorem State.setHidden_run (v : BitVec 1) : (s.setHidden v).run = s.run := rfl
@[simp] theorem State.setHidden_pwdlen (v : BitVec 1) : (s.setHidden v).pwdlen = s.pwdlen := rfl
@[simp] theorem State.setHidden_ssidlen (v : BitVec 1) : (s.setHidden v).ssidlen = s.ssidlen := rfl
@[simp] theorem State.setHidden_hidden (v : BitVec 1) : (s.setHidden v).hidden = v := rfl
@[simp] theorem State.setHidden_ncodes (v : BitVec 1) : (s.setHidden v).ncodes = s.ncodes := rfl
@[simp] theorem State.setHidden_err (v : BitVec 1) : (s.setHidden v).err = s.err := rfl
@[simp] theorem State.setHidden_cred (v : BitVec 1) : (s.setHidden v).cred = s.cred := rfl
@[simp] theorem State.setHidden_code (v : BitVec 1) : (s.setHidden v).code = s.code := rfl
@[simp] theorem State.setHidden_out (v : BitVec 1) : (s.setHidden v).out = s.out := rfl
@[simp] theorem State.setHidden_rsps (v : BitVec 1) : (s.setHidden v).rsps = s.rsps := rfl
@[simp] theorem State.setHidden_input (v : BitVec 1) : (s.setHidden v).input = s.input := rfl
@[simp] theorem State.setHidden_draw (v : BitVec 1) : (s.setHidden v).draw = s.draw := rfl
@[simp] theorem State.setHidden_credByte (v : BitVec 1) (k : Nat) : (s.setHidden v).credByte k = s.credByte k := rfl
@[simp] theorem State.setHidden_credBytes (v : BitVec 1) (base len : Nat) :
    (s.setHidden v).credBytes base len = s.credBytes base len := rfl
@[simp] theorem State.setHidden_codeEntry (v : BitVec 1) (k : Nat) : (s.setHidden v).codeEntry k = s.codeEntry k := rfl

end

section

-- what `State.writeCred` leaves in each field

@[simp] theorem State.writeCred_run (a : Nat) (b : Byte) : (s.writeCred a b).run = s.run := rfl
@[simp] theorem State.writeCred_pwdlen (a : Nat) (b : Byte) : (s.writeCred a b).pwdlen = s.pwdlen := rfl
@[simp] theorem State.writeCred_ssidlen (a : Nat) (b : Byte) : (s.writeCred a b).ssidlen = s.ssidlen := rfl
@[simp] theorem State.writeCred_hidden (a : Nat) (b : Byte) : (s.writeCred a b).hidden = s.hidden := rfl
@[simp] theorem State.writeCred_ncodes (a : Nat) (b : Byte) : (s.writeCred a b).ncodes = s.ncodes := rfl
@[simp] theorem State.writeCred_err (a : Nat) (b : Byte) : (s.writeCred a b).err = s.err := rfl
@[simp] theorem State.writeCred_cred (a : Nat) (b : Byte) : (s.writeCred a b).cred = Memory.write s.cred a b := rfl
@[simp] theorem State.writeCred_code (a : Nat) (b : Byte) : (s.writeCred a b).code = s.code := rfl
@[simp] theorem State.writeCred_out (a : Nat) (b : Byte) : (s.writeCred a b).out = s.out := rfl
@[simp] theorem State.writeCred_rsps (a : Nat) (b : Byte) : (s.writeCred a b).rsps = s.rsps := rfl
@[simp] theorem State.writeCred_input (a : Nat) (b : Byte) : (s.writeCred a b).input = s.input := rfl
@[simp] theorem State.writeCred_draw (a : Nat) (b : Byte) : (s.writeCred a b).draw = s.draw := rfl
@[simp] theorem State.writeCred_credByte_same (a : Nat) (b : Byte) : (s.writeCred a b).credByte a = b := Memory.read_write_same _ _ _ _
theorem State.writeCred_credByte_other {a k : Nat} (b : Byte) (h : k ≠ a) : (s.writeCred a b).credByte k = s.credByte k :=
  Memory.read_write_other _ _ _ h
@[simp] theorem State.writeCred_codeEntry (a : Nat) (b : Byte) (k : Nat) : (s.writeCred a b).codeEntry k = s.codeEntry k := rfl

end

section

-- what `State.storeCodes` leaves in each field

@[simp] theorem State.storeCodes_run (codes : List Code) (n : BitVec 9) : (s.storeCodes codes n).run = s.run := rfl
@[simp] theorem State.storeCodes_pwdlen (codes : List Code) (n : BitVec 9) : (s.storeCodes codes n).pwdlen = s.pwdlen := rfl
@[simp] theorem State.storeCodes_ssidlen (codes : List Code) (n : BitVec 9) : (s.storeCodes codes n).ssidlen = s.ssidlen := rfl
@[simp] theorem State.storeCodes_hidden (codes : List Code) (n : BitVec 9) : (s.storeCodes codes n).hidden = s.hidden := rfl
@[simp] theorem State.storeCodes_ncodes (codes : List Code) (n : BitVec 9) : (s.storeCodes codes n).ncodes = n := rfl
@[simp] theorem State.storeCodes_err (codes : List Code) (n : BitVec 9) : (s.storeCodes codes n).err = s.err := rfl
@[simp] theorem State.storeCodes_cred (codes : List Code) (n : BitVec 9) : (s.storeCodes codes n).cred = s.cred := rfl
@[simp] theorem State.storeCodes_code (codes : List Code) (n : BitVec 9) : (s.storeCodes codes n).code = Memory.writeList s.code 0 codes := rfl
@[simp] theorem State.storeCodes_out (codes : List Code) (n : BitVec 9) : (s.storeCodes codes n).out = s.out := rfl
@[simp] theorem State.storeCodes_rsps (codes : List Code) (n : BitVec 9) : (s.storeCodes codes n).rsps = s.rsps := rfl
@[simp] theorem State.storeCodes_input (codes : List Code) (n : BitVec 9) : (s.storeCodes codes n).input = s.input := rfl
@[simp] theorem State.storeCodes_draw (codes : List Code) (n : BitVec 9) : (s.storeCodes codes n).draw = s.draw := rfl
@[simp] theorem State.storeCodes_credByte (codes : List Code) (n : BitVec 9) (k : Nat) : (s.storeCodes codes n).credByte k = s.credByte k := rfl
@[simp] theorem State.storeCodes_credBytes (codes : List Code) (n : BitVec 9) (base len : Nat) :
    (s.storeCodes codes n).credBytes base len = s.credBytes base len := rfl
theorem State.storeCodes_codeEntry_inside (codes : List Code) (n : BitVec 9) (k : Nat) (h : k < codes.length) :
    (s.storeCodes codes n).codeEntry k = codes[k] := by
  have := Memory.find_writeList_inside s.code 0 codes k h
  rw [Nat.zero_add] at this
  simp [State.codeEntry, Memory.read, this]
theorem State.storeCodes_codeEntry_outside (codes : List Code) (n : BitVec 9) {k : Nat} (h : codes.length ≤ k) :
    (s.storeCodes codes n).codeEntry k = s.codeEntry k := by
  simp only [State.codeEntry, Memory.read, State.storeCodes_code, State.storeCodes_draw]
  rw [Memory.find_writeList_outside s.code 0 codes (b := k) (.inr (by omega))]

end

end Sys2Proof.Machine
end

