-- ==== Sys2Proof/Laws/Ops.lean ====
section
/-! SUPPORT. What each shared operation can do, said once. -/

namespace Sys2Proof.Machine

/-- The halted test is a test of `ERR` (R167). -/
theorem State.halted_eq_true_iff (s : State) : s.halted = true ↔ s.err ≠ 0 := by simp [State.halted]

theorem State.halted_eq_false_iff (s : State) : s.halted = false ↔ s.err = 0 := by simp [State.halted]

/-- A block that is not halted performs the operation. -/
theorem answer_running {s : State} (h : s.err = 0) (f : State → State) : answer s f = f s := by
  simp [answer, State.halted, h]

/-- A halted block answers and performs nothing. -/
theorem answer_halted {s : State} (h : s.err ≠ 0) (f : State → State) : answer s f = s.respondHalted :=
  if_pos ((State.halted_eq_true_iff s).2 h)

/-- The two ways a request can be answered. -/
theorem answer_cases (s : State) (f : State → State) :
    (s.err ≠ 0 ∧ answer s f = s.respondHalted) ∨ (s.err = 0 ∧ answer s f = f s) := by
  by_cases h : s.err = 0
  · exact .inr ⟨h, answer_running h f⟩
  · exact .inl ⟨h, answer_halted h f⟩

/-- Every operation answers a next state, and where the block is halted it is the halted answer. -/
theorem exec_cases (i : Instr) (s : State) :
    (s.err ≠ 0 ∧ exec i s = .next s.respondHalted) ∨ (s.err = 0 ∧ ∃ t, exec i s = .next t) := by
  by_cases h : s.err = 0
  · cases i <;> exact .inr ⟨h, _, rfl⟩
  · refine .inl ⟨h, ?_⟩
    cases i <;> exact congrArg Host.Outcome.next (answer_halted h _)

/-- The four things a step can do. -/
theorem step_cases (s : State) :
    (s.input = [] ∧ step s = .next s) ∨
    (∃ abandoned rest, s.input = .reset abandoned :: rest ∧
      step s = .next (s.withInput rest).afterReset) ∨
    (∃ req rest i, s.input = .request req :: rest ∧ decode req = .ok i ∧
      step s = exec i (s.withInput rest)) ∨
    (∃ req rest e, s.input = .request req :: rest ∧ decode req = .error e ∧
      step s = .next (answerIllegal (s.withInput rest))) := by
  cases h : s.input with
  | nil => exact .inl ⟨rfl, by simp [step, nextInput, h, waitForInput]⟩
  | cons first rest =>
    cases first with
    | reset abandoned =>
      exact .inr (.inl ⟨abandoned, rest, rfl, by simp [step, nextInput, h, takeReset]⟩)
    | request req =>
      cases hd : decode req with
      | ok i =>
        exact .inr (.inr (.inl ⟨req, rest, i, rfl, hd, by simp [step, nextInput, h, decodeRequest, hd, Except.toOption]⟩))
      | error e =>
        exact .inr (.inr (.inr ⟨req, rest, e, rfl, hd, by simp [step, nextInput, h, decodeRequest, hd, Except.toOption]⟩))

/-- The bytes `DATUM.ENC` reads are as many as it asks for. -/
@[simp] theorem State.credBytes_length (s : State) (base n : Nat) : (s.credBytes base n).length = n := by
  simp [State.credBytes]

@[simp] theorem State.credential_pwd_length (s : State) : s.credential.pwd.length = s.pwdlen.toNat := by
  simp [State.credential]

@[simp] theorem State.credential_ssid_length (s : State) : s.credential.ssid.length = s.ssidlen.toNat := by
  simp [State.credential]

/-- The indices of the code store (R34). -/
@[simp] theorem isCodeIndex_eq_true_iff (k : Nat) : isCodeIndex k = true ↔ k < 384 :=
  decide_eq_true_iff

@[simp] theorem isCodeIndex_eq_false_iff (k : Nat) : isCodeIndex k = false ↔ 384 ≤ k :=
  decide_eq_false_iff_not.trans Nat.not_lt

/-- An address of the map of R32 is storage exactly where the map says so. -/
theorem credPlace_storage_iff (a : BitVec 10) (n : Nat) :
    credPlace a = .storage n ↔ isCredStorage a.toNat = true ∧ n = a.toNat := by
  unfold credPlace
  by_cases h : isCredStorage a.toNat = true
  · simp [h, eq_comm]
  · split_ifs <;> simp [h]

/-- An address the map gives storage to is an address of the map. -/
theorem isCredStorage_of_credPlace {a : BitVec 10} {n : Nat} (h : credPlace a = .storage n) :
    isCredStorage n = true := by
  obtain ⟨h₁, rfl⟩ := (credPlace_storage_iff a n).1 h
  exact h₁

end Sys2Proof.Machine
end

