-- ==== Sys2Proof/Laws/Datum.lean ====
section
/-! SUPPORT. The shape of the datum encoder's walk over the value sequence (42_datum_encoder.md R96, R97). -/

namespace Sys2Proof.Machine

/-- The encoder's index counter succeeds up to `INDEX_MAX` and fails above (R80). -/
theorem dataCode_eq (v : Byte) (x : Nat) :
    dataCode v x = if x ≤ 127 then .ok (groupLayout v (BitVec.ofNat 8 x)) else .error .indexOutOfRange := by
  unfold dataCode Config.indexMax
  split_ifs <;> first | rfl | omega

/-- The flattened bytes of the groups from index `i` up, where every index is legal. -/
def flatFrom : Nat → List Byte → List Byte
  | _, [] => []
  | i, v :: rest => (groupLayout v (BitVec.ofNat 8 i)).bytes ++ flatFrom (i + 1) rest

/-- Where the last index is at most `INDEX_MAX` the walk gives every group (R96). -/
theorem flattenGroups_ok (i : Nat) (vs : List Byte) (h : i + vs.length ≤ 128) :
    flattenGroups i vs = .ok (flatFrom i vs) := by
  induction vs generalizing i with
  | nil => rfl
  | cons v rest ih =>
    simp only [List.length_cons] at h
    simp [flattenGroups, dataCode_eq, show i ≤ 127 by omega, ih (i + 1) (by omega), flatFrom]

/-- Where a value would stand at index 128 the walk fails (R96, R99). -/
theorem flattenGroups_error (i : Nat) (vs : List Byte) (hi : i ≤ 128) (h : 128 < i + vs.length) :
    flattenGroups i vs = .error .indexOutOfRange := by
  induction vs generalizing i with
  | nil => simp at h; omega
  | cons v rest ih =>
    simp only [List.length_cons] at h
    by_cases h₁ : i ≤ 127
    · simp [flattenGroups, dataCode_eq, h₁, ih (i + 1) (by omega) (by omega)]
    · simp [flattenGroups, dataCode_eq, h₁]

/-- One group's six bytes are three pairs (R83). -/
theorem pairCodes_bytes (g : Group) (rest : List Byte) :
    pairCodes (g.bytes ++ rest) =
      pairCode g.g0 g.g1 :: pairCode g.g2 g.g3 :: pairCode g.g4 g.g5 :: pairCodes rest := rfl

end Sys2Proof.Machine
end

