-- ==== Sys2Proof/Laws/Exec.lean ====
section
/-! SUPPORT. What each operation does in a block that is not halted: one lemma per meaning, so that no later proof unfolds
`answer`; and what a halted block does with every one. -/

namespace Sys2Proof.Machine

variable {s : State}

/-- A halted block gives every operation the same answer (R167). -/
theorem exec_halted (h : s.err ≠ 0) (i : Instr) : exec i s = .next s.respondHalted := by
  rcases exec_cases i s with ⟨_, e⟩ | ⟨h', _⟩
  · exact e
  · exact absurd h' h

theorem execCrcRst_running (h : s.err = 0) :
    exec .crcRst s = .next ((s.setRun Config.crcInitial).respond 0) :=
  congrArg Host.Outcome.next (answer_running h _)

theorem execCrcUpd_running (h : s.err = 0) (b : Byte) :
    exec (.crcUpd b) s = .next ((s.setRun (crcStep s.run b)).respond ((crcStep s.run b).setWidth 48)) :=
  congrArg Host.Outcome.next (answer_running h _)

theorem execCrcGet_running (h : s.err = 0) : exec .crcGet s = .next (s.respond (s.run.setWidth 48)) :=
  congrArg Host.Outcome.next (answer_running h _)

theorem execCrcLut_running (h : s.err = 0) (i : Byte) :
    exec (.crcLut i) s = .next (s.respond ((crcTable i).setWidth 48)) :=
  congrArg Host.Outcome.next (answer_running h _)

theorem execDcEnc_running (h : s.err = 0) (v x : Byte) :
    exec (.dcEnc v x) s =
      .next (if x.toNat ≤ 127 then s.respond (groupLayout v x).data else s.raise .indexOutOfRange) := by
  refine (congrArg Host.Outcome.next (answer_running h _)).trans ?_
  rw [dataCode_eq]
  split_ifs <;> simp

theorem execCredWr_running (h : s.err = 0) (a : BitVec 10) (b : Byte) :
    exec (.credWr a b) s = .next (
      match credPlace a with
      | .storage address => (s.writeCred address b).respond 0
      | .pwdlen => (s.setPwdlen b).respond 0
      | .ssidlen => (s.setSsidlen b).respond 0
      | .hidden => (s.setHidden (b.extractLsb' 0 1)).respond 0
      | .reserved => s.raise .addressOutOfRange) :=
  congrArg Host.Outcome.next (answer_running h _)

theorem execCredRd_running (h : s.err = 0) (a : BitVec 10) :
    exec (.credRd a) s = .next (
      match credPlace a with
      | .storage address => s.respond ((s.credByte address).setWidth 48)
      | .pwdlen => s.respond (s.pwdlen.setWidth 48)
      | .ssidlen => s.respond (s.ssidlen.setWidth 48)
      | .hidden => s.respond (s.hidden.setWidth 48)
      | .reserved => s.raise .addressOutOfRange) :=
  congrArg Host.Outcome.next (answer_running h _)

theorem execDatumEnc_running (h : s.err = 0) :
    exec .datumEnc s = .next (
      if 255 < s.credential.totalLen then s.raise .valueOutOfRange
      else if Config.groupsMax < s.credential.groupCount then s.raise .indexOutOfRange
      else
        match datumCodes s.credential with
        | .error e => s.raise e
        | .ok codes =>
          (s.storeCodes codes (BitVec.ofNat 9 (3 * s.credential.groupCount))).respond
            (datumData s.credential.totalLenByte s.credential.totalXor
              (BitVec.ofNat 9 (3 * s.credential.groupCount)))) :=
  congrArg Host.Outcome.next (answer_running h _)

theorem execCodeRd_running (h : s.err = 0) (k : BitVec 9) :
    exec (.codeRd k) s = .next (
      if s.ncodes ≤ k ∨ isCodeIndex k.toNat = false then s.raise .addressOutOfRange
      else s.respond ((s.codeEntry k.toNat).setWidth 48)) :=
  congrArg Host.Outcome.next (answer_running h _)

theorem execCodeCnt_running (h : s.err = 0) : exec .codeCnt s = .next (s.respond (s.ncodes.setWidth 48)) :=
  congrArg Host.Outcome.next (answer_running h _)

theorem execMatGen_running (h : s.err = 0) (c : Code) :
    exec (.matGen c) s = .next ((s.emit (materialize c)).respond (c.setWidth 48)) :=
  congrArg Host.Outcome.next (answer_running h _)

end Sys2Proof.Machine
end

