-- ==== Sys2Proof/Laws/PerInstr.lean ====
section
/-! SUPPORT. Statements about every operation as syntax, one lemma per constructor of `Instr`. -/

namespace Sys2Proof.Laws

/-- The `op` field the spec gives an operation (30_encoding.md R47). -/
def opNumber : Instr → BitVec 4
  | .crcRst => 0x1
  | .crcUpd _ => 0x2
  | .crcGet => 0x3
  | .crcLut _ => 0x4
  | .dcEnc _ _ => 0x5
  | .credWr _ _ => 0x6
  | .credRd _ => 0x7
  | .datumEnc => 0x8
  | .codeRd _ => 0x9
  | .codeCnt => 0xA
  | .matGen _ => 0xB

/-- The types of the operands make every operation well formed. -/
theorem instr_wellFormed (i : Instr) : i.wellFormed = true := by
  cases i <;>
    simp only [Instr.wellFormed, Instr.toSource, Source.wellFormed, fitsField, BitVec.isLt, decide_true, Bool.and_self]

/-- A bit of `a` placed in a word, read back through a field of the word. -/
theorem field_of_or {w n : Nat} (base a : BitVec w) (start : Nat) :
    (base ||| a).extractLsb' start n = base.extractLsb' start n ||| a.extractLsb' start n := by
  ext k
  simp

/-- An operand narrower than `start` bits does not reach the field that starts there. -/
theorem field_of_narrow {m w n : Nat} (a : BitVec m) (start : Nat) (h : m ≤ start) :
    (a.setWidth w).extractLsb' start n = 0 := by
  ext k
  simp [BitVec.getLsbD_of_ge a (start + k) (by omega)]

/-- An operand shifted by 8 does not reach a field that starts above it. -/
theorem field_of_shifted {m n : Nat} (a : BitVec m) (start : Nat) (h : m + 8 ≤ start) :
    (a.setWidth 32 <<< 8).extractLsb' start n = 0 := by
  ext k
  simp only [BitVec.getElem_extractLsb', BitVec.getLsbD_shiftLeft, BitVec.getLsbD_setWidth]
  simp [BitVec.getLsbD_of_ge a (start + k - 8) (by omega)]

/-- The encoded word has the operation's number in `op` and zeros in `rz`, and the operation is well formed (R45, R47). -/
def Fields.Statement (i : Instr) : Prop :=
  i.wellFormed = true ∧ opField (encode i) = opNumber i ∧ rzField (encode i) = 0

theorem Fields.crcRst : Fields.Statement .crcRst := by
  refine ⟨rfl, ?_, ?_⟩ <;> decide

theorem Fields.crcUpd (b : Byte) : Fields.Statement (.crcUpd b) := by
  refine ⟨instr_wellFormed _, ?_, ?_⟩ <;>
    simp [encode, opField, rzField, opNumber, field_of_or, field_of_narrow]

theorem Fields.crcGet : Fields.Statement .crcGet := by
  refine ⟨rfl, ?_, ?_⟩ <;> decide

theorem Fields.crcLut (i : Byte) : Fields.Statement (.crcLut i) := by
  refine ⟨instr_wellFormed _, ?_, ?_⟩ <;>
    simp [encode, opField, rzField, opNumber, field_of_or, field_of_narrow]

theorem Fields.dcEnc (v x : Byte) : Fields.Statement (.dcEnc v x) := by
  refine ⟨instr_wellFormed _, ?_, ?_⟩ <;>
    simp [encode, opField, rzField, opNumber, field_of_or, field_of_narrow, field_of_shifted]

theorem Fields.credWr (a : BitVec 10) (b : Byte) : Fields.Statement (.credWr a b) := by
  refine ⟨instr_wellFormed _, ?_, ?_⟩ <;>
    simp [encode, opField, rzField, opNumber, field_of_or, field_of_narrow, field_of_shifted]

theorem Fields.credRd (a : BitVec 10) : Fields.Statement (.credRd a) := by
  refine ⟨instr_wellFormed _, ?_, ?_⟩ <;>
    simp [encode, opField, rzField, opNumber, field_of_or, field_of_shifted]

theorem Fields.datumEnc : Fields.Statement .datumEnc := by
  refine ⟨rfl, ?_, ?_⟩ <;> decide

theorem Fields.codeRd (k : BitVec 9) : Fields.Statement (.codeRd k) := by
  refine ⟨instr_wellFormed _, ?_, ?_⟩ <;>
    simp [encode, opField, rzField, opNumber, field_of_or, field_of_narrow]

theorem Fields.codeCnt : Fields.Statement .codeCnt := by
  refine ⟨rfl, ?_, ?_⟩ <;> decide

theorem Fields.matGen (c : Code) : Fields.Statement (.matGen c) := by
  refine ⟨instr_wellFormed _, ?_, ?_⟩ <;>
    simp [encode, opField, rzField, opNumber, field_of_or, field_of_narrow]

end Sys2Proof.Laws
end

