-- ==== Sys2Proof/Laws/Run.lean ====
section
/-! SUPPORT. A run taken one step at a time. -/

namespace Sys2Proof.Machine

/-- A run whose first step answers a next state goes on from that state. -/
theorem run_next {s t : State} (n : Nat) (h : step s = .next t) :
    Sys2Proof.core.run (n + 1) s = Sys2Proof.core.run n t := by
  simp only [Host.Core.run]
  rw [show Sys2Proof.core.step s = .next t from h]

/-- A run whose first input is a request that selects an operation. -/
theorem run_request {s t : State} {req : Word} {i : Instr} {rest : List HostInput} (n : Nat)
    (hd : decode req = .ok i) (h : exec i (s.withInput rest) = .next t) :
    Sys2Proof.core.run (n + 1) (s.withInput (.request req :: rest)) = Sys2Proof.core.run n t := by
  refine run_next n (Eq.trans ?_ h)
  simp only [step, nextInput, State.withInput_input, decodeRequest, hd, Except.toOption]
  rfl

/-- A run that has ended. -/
theorem run_zero (s : State) : Sys2Proof.core.run 0 s = .next s := rfl

end Sys2Proof.Machine
end

