-- ==== Sys2Proof/Tests/Slice0.lean ====
section
/-! SUPPORT. Tests of the model: expected values are the spec's own (95_test_vectors.md, vectors V and programs P, and the
examples of the rules). Then the witnesses: for each claim with hypotheses, a concrete state and operands that meet them. -/

namespace Sys2Proof.Tests

open Sys2Proof Sys2Proof.Machine

/-- The next state an outcome holds. -/
def nextOf (o : Host.Outcome State Fault Refusal) : Option State :=
  match o with
  | .next s => some s
  | .fault _ => none
  | .refused _ => none

/-- What an observer sees of an outcome: `ERR`, `RUN`, the responses. -/
def seen (o : Host.Outcome State Fault Refusal) : Option (ErrCode × Byte × List Response) :=
  (nextOf o).map fun s => (s.err, s.run, s.rsps)

/-- Cells of consecutive addresses. -/
def cellsAt (base : Nat) (bytes : List Byte) : List Host.Cell :=
  (List.range bytes.length).map (fun k => base + k) |>.zip bytes

/-- A state with a credential loaded. -/
def loaded (ssid pwd bssid ip : List Byte) (hidden : BitVec 1) : State :=
  { State.reset with
    pwdlen := BitVec.ofNat 8 pwd.length
    ssidlen := BitVec.ofNat 8 ssid.length
    hidden := hidden
    cred := cellsAt 0x000 bssid ++ cellsAt 0x008 ip ++ cellsAt 0x100 pwd ++ cellsAt 0x200 ssid }

/-- The source's fixture (V40), hidden or not (V41). -/
def fixture (hidden : BitVec 1) : State :=
  loaded [0x54, 0x65, 0x73, 0x74] [0x31, 0x32, 0x33, 0x34, 0x35, 0x36, 0x37, 0x38] [0xAA, 0xBB, 0xCC, 0xDD, 0xEE, 0xFF]
    [0xC0, 0xA8, 0x01, 0x01] hidden

/-- A state with lengths only (V62 to V65): the credential bytes are unwritten. -/
def lengths (pwdlen ssidlen : Byte) (hidden : BitVec 1) : State :=
  { State.reset with pwdlen := pwdlen, ssidlen := ssidlen, hidden := hidden }

/-- The first three codes of V40 in the code store. -/
def threeCodes : State := { State.reset with code := Memory.writeList [] 0 [57, 296, 93], ncodes := 3 }

/-- A block halted by `IndexOutOfRange` (P3). -/
def halted : State := { State.reset with err := 1, run := 0x5E }

/-- The codes a credential gives, as numbers. -/
def codesOf (s : State) : Option (List Nat) := (datumCodes s.credential).toOption.map (List.map BitVec.toNat)

/-! Well-formedness (R52): one ill-formed line for each check, refused. -/

theorem test_wellFormed_refuses_wide_byte : assemble (.crcUpd 256) = .error .operandDoesNotFit := by decide

theorem test_wellFormed_refuses_wide_index : assemble (.crcLut 256) = .error .operandDoesNotFit := by decide

theorem test_wellFormed_refuses_wide_value : assemble (.dcEnc 256 0) = .error .operandDoesNotFit := by decide

theorem test_wellFormed_refuses_wide_sequence_index : assemble (.dcEnc 0 256) = .error .operandDoesNotFit := by decide

theorem test_wellFormed_refuses_wide_write_address : assemble (.credWr 0x400 0) = .error .operandDoesNotFit := by decide

theorem test_wellFormed_refuses_wide_written_byte : assemble (.credWr 0 256) = .error .operandDoesNotFit := by decide

theorem test_wellFormed_refuses_wide_read_address : assemble (.credRd 0x400) = .error .operandDoesNotFit := by decide

theorem test_wellFormed_refuses_wide_code_index : assemble (.codeRd 512) = .error .operandDoesNotFit := by decide

theorem test_wellFormed_refuses_wide_code : assemble (.matGen 65536) = .error .operandDoesNotFit := by decide

theorem test_wellFormed_refuses_wide_buffer_byte : assemble (.crcBuf [0, 256]) = .error .operandDoesNotFit := by decide

theorem test_wellFormed_refuses_short_bssid : assemble (.credBssid [1, 2, 3, 4, 5]) = .error .operandDoesNotFit := by
  decide

theorem test_wellFormed_refuses_wide_bssid_byte : assemble (.credBssid [1, 2, 3, 4, 5, 256]) = .error .operandDoesNotFit := by
  decide

theorem test_wellFormed_refuses_long_ip : assemble (.credIp [1, 2, 3, 4, 5]) = .error .operandDoesNotFit := by decide

theorem test_wellFormed_refuses_wide_ip_byte : assemble (.credIp [1, 2, 3, 300]) = .error .operandDoesNotFit := by decide

theorem test_wellFormed_refuses_long_password :
    assemble (.credPwd (List.replicate 256 0)) = .error .operandDoesNotFit := by decide +kernel

theorem test_wellFormed_refuses_wide_password_byte : assemble (.credPwd [256]) = .error .operandDoesNotFit := by decide

theorem test_wellFormed_refuses_long_ssid :
    assemble (.credSsid (List.replicate 256 0)) = .error .operandDoesNotFit := by decide +kernel

theorem test_wellFormed_refuses_wide_ssid_byte : assemble (.credSsid [256]) = .error .operandDoesNotFit := by decide

theorem test_wellFormed_refuses_hidden_2 : assemble (.credHid 2) = .error .operandDoesNotFit := by decide

/-! The assembler (R52, R53). -/

/-- R52: `DC.ENC 0x41, 5` assembles to `0x50000541`; mnemonics are case-insensitive, `;` starts a comment. -/
theorem test_assembleLine_dcEnc :
    (assembleLine ['d', 'C', '.', 'E', 'N', 'C', ' ', '0', 'x', '4', '1', ',', ' ', '5', ' ', ';', 'c']).toOption.map
      (List.map encode) = some [0x50000541] := by decide

/-- R53: `CRED.PWD` writes its bytes, then the length. -/
theorem test_expand_credPwd :
    (assemble (.credPwd [0x31, 0x32])).toOption.map (List.map encode) =
      some [0x60010031, 0x60010132, 0x60001002] := by decide

/-- R53: `CRC.BUF` of no bytes. -/
theorem test_expand_crcBuf_empty :
    (assemble (.crcBuf [])).toOption.map (List.map encode) = some [0x10000000, 0x30000000] := by decide

/-! Decoding: words written out from the patterns of R48, and the illegal words of section 3.5. -/

theorem test_decode_crc_family :
    decode 0b00010000000000000000000000000000 = .ok .crcRst ∧ decode 0b00100000000000000000000010000001 = .ok (.crcUpd 0x81) ∧
    decode 0b00110000000000000000000000000000 = .ok .crcGet ∧
    decode 0b01000000000000000000000001111111 = .ok (.crcLut 0x7F) := by decide

theorem test_decode_dcEnc : decode 0b01010000000000000000010101000001 = .ok (.dcEnc 0x41 0x05) := by decide

theorem test_decode_cred_family :
    decode 0b01100000000000011000000011111110 = .ok (.credWr 0x180 0xFE) ∧
    decode 0b01110000000000111111111100000000 = .ok (.credRd 0x3FF) := by decide

theorem test_decode_code_family :
    decode 0b10000000000000000000000000000000 = .ok .datumEnc ∧
    decode 0b10010000000000000000000101111111 = .ok (.codeRd 0x17F) ∧
    decode 0b10100000000000000000000000000000 = .ok .codeCnt := by decide

theorem test_decode_matGen : decode 0b10110000000000000000000110100111 = .ok (.matGen 423) := by decide

/-- V66 to V75: every word there is illegal, for the reasons (a), (b), (c) of R50. -/
theorem test_decode_illegal :
    decode 0x00000000 = .error .reservedOp ∧ decode 0xFFFFFFFF = .error .reservedOp ∧
    decode 0xC0000000 = .error .reservedOp ∧ decode 0x11000000 = .error .reservedField ∧
    decode 0x10000001 = .error .strayOperandBit ∧ decode 0x20000100 = .error .strayOperandBit ∧
    decode 0x70010001 = .error .strayOperandBit ∧ decode 0x60040000 = .error .strayOperandBit ∧
    decode 0x90000200 = .error .strayOperandBit ∧ decode 0xB0010000 = .error .strayOperandBit := by decide

/-- Example of R82. -/
theorem test_decodeTableWord : decodeTableWord 32 0x50000541 = some (.dcEnc 0x41 5) := by decide

/-- A step runs the request presented first, from reset (P6 line 6). -/
theorem test_step_withFetchWord :
    seen (step (State.reset.withFetchWord 32 0x5000023C)) = some (0, 0, [⟨0, 0x00D3010200CC⟩]) := by decide +kernel

/-! The CRC engine. -/

/-- V2, V12, V15. -/
theorem test_crcTable : crcTable 0x01 = 0x5E ∧ crcTable 0x80 = 0x8C ∧ crcTable 0xFF = 0x35 := by decide

/-- V28, V24. -/
theorem test_crc8 :
    crc8 [0x31, 0x32, 0x33, 0x34, 0x35, 0x36, 0x37, 0x38, 0x39] = 0xA1 ∧ crc8 [0x54, 0x65, 0x73, 0x74] = 0x3C := by decide +kernel

/-- Example of R66. -/
theorem test_crcRst : seen (exec .crcRst { State.reset with run := 0x60 }) = some (0, 0, [⟨0, 0⟩]) := by decide

/-- P1 line 3. -/
theorem test_crcUpd : seen (exec (.crcUpd 0x05) { State.reset with run := 0x18 }) = some (0, 0x60, [⟨0, 0x60⟩]) := by
  decide

/-- P1 line 4. -/
theorem test_crcGet : seen (exec .crcGet { State.reset with run := 0x60 }) = some (0, 0x60, [⟨0, 0x60⟩]) := by decide

/-- P1 line 7. -/
theorem test_crcLut : seen (exec (.crcLut 0x1D) State.reset) = some (0, 0, [⟨0, 0x60⟩]) := by decide

/-! The data-code encoder. -/

/-- V29 and V36; `RUN` is not disturbed (D11). -/
theorem test_dcEnc :
    seen (exec (.dcEnc 0x41 5) { State.reset with run := 0x77 }) = some (0, 0x77, [⟨0, 0x006401050001⟩]) ∧
    seen (exec (.dcEnc 0x0F 68) State.reset) = some (0, 0, [⟨0, 0x0030014400FF⟩]) := by decide +kernel

/-- V60 and V61: the first illegal index and the last legal one. -/
theorem test_dcEnc_index :
    seen (exec (.dcEnc 0x00 128) State.reset) = some (1, 0, [⟨1, 0⟩]) ∧
    seen (exec (.dcEnc 0x00 127) State.reset) = some (0, 0, [⟨0, 0x00B0017F0090⟩]) := by decide +kernel

/-! The datum encoder. -/

/-- V47: bit 0 of a byte written to `HIDDEN` is kept; V76: a reserved address. -/
theorem test_credWr :
    (nextOf (exec (.credWr 0x012 0xFF) State.reset)).map (·.hidden) = some 1 ∧
    (nextOf (exec (.credWr 0x012 0xFE) State.reset)).map (·.hidden) = some 0 ∧
    seen (exec (.credWr 0x006 0) State.reset) = some (5, 0, [⟨5, 0⟩]) := by decide

/-- V47: the byte written at `PWD[0]`. -/
theorem test_credWr_password :
    (nextOf (exec (.credWr 0x100 0x31) State.reset)).map (·.cred) = some [(0x100, 0x31)] := by decide

/-- P2: `PWD[7]` and `PWDLEN` of the fixture; V80: a reserved address. -/
theorem test_credRd :
    seen (exec (.credRd 0x107) (fixture 0)) = some (0, 0, [⟨0, 0x38⟩]) ∧
    seen (exec (.credRd 0x010) (fixture 0)) = some (0, 0, [⟨0, 8⟩]) ∧
    seen (exec (.credRd 0x3FF) State.reset) = some (5, 0, [⟨5, 0⟩]) := by decide

/-- V40: all 51 codes. -/
theorem test_datumCodes_fixture : codesOf (fixture 0) = some
    ([57, 296, 93, 72, 297, 176, 251, 298, 244, 185, 299, 282, 238, 300, 109, 180, 301, 216, 114, 302, 128] ++
      [104, 303, 153, 40, 304, 137, 155, 305, 121, 235, 306, 74, 123, 307, 171, 219, 308, 124, 75, 309, 285] ++
      [187, 310, 174, 43, 311, 79, 235, 312, 144]) := by decide +kernel

/-- V40, V41: the response, hidden or not. -/
theorem test_datumEnc :
    seen (exec .datumEnc (fixture 0)) = some (0, 0, [⟨0, 0x000015650033⟩]) ∧
    seen (exec .datumEnc (fixture 1)) = some (0, 0, [⟨0, 0x00001565003F⟩]) := by decide +kernel

/-- V62, V63, V64, V65: the errors depend on the lengths alone. -/
theorem test_datumEnc_errors :
    seen (exec .datumEnc (lengths 120 0 0)) = some (1, 0, [⟨1, 0⟩]) ∧
    seen (exec .datumEnc (lengths 119 128 0)) = some (3, 0, [⟨3, 0⟩]) ∧
    seen (exec .datumEnc (lengths 200 100 1)) = some (3, 0, [⟨3, 0⟩]) ∧
    seen (exec .datumEnc (lengths 0 120 1)) = some (1, 0, [⟨1, 0⟩]) := by decide +kernel

/-- V49: entry 1 of V40; V81: no entry directly after reset. -/
theorem test_codeRd :
    seen (exec (.codeRd 1) threeCodes) = some (0, 0, [⟨0, 0x128⟩]) ∧
    seen (exec (.codeRd 3) threeCodes) = some (5, 0, [⟨5, 0⟩]) ∧
    seen (exec (.codeRd 0) State.reset) = some (5, 0, [⟨5, 0⟩]) := by decide

/-- V48: 51 codes after V40, 0 after reset. -/
theorem test_codeCnt :
    seen (exec .codeCnt { State.reset with ncodes := 51 }) = some (0, 0, [⟨0, 0x33⟩]) ∧
    seen (exec .codeCnt State.reset) = some (0, 0, [⟨0, 0⟩]) := by decide

/-! The materializer. -/

/-- V52 and V54. -/
theorem test_matGen :
    (nextOf (exec (.matGen 57) State.reset)).map (fun s => (s.out.map List.length, s.rsps)) = some ([57], [⟨0, 57⟩]) ∧
    (nextOf (exec (.matGen 0) State.reset)).map (fun s => (s.out.map List.length, s.rsps)) = some ([0], [⟨0, 0⟩]) := by
  decide

/-! The halted block and reset. -/

/-- V82, V83, and no datagram (V84). -/
theorem test_halted :
    seen (step (halted.withFetchWord 32 0x30000000)) = some (1, 0x5E, [⟨1, 0⟩]) ∧
    seen (step (halted.withFetchWord 32 0x00000000)) = some (1, 0x5E, [⟨1, 0⟩]) ∧
    (nextOf (step (halted.withFetchWord 32 0xB0000028))).map (·.out) = some [] := by decide

/-- R180: reset leaves the halted state. -/
theorem test_reset_input :
    seen (step { halted with input := [.reset (some 0xB0000028)] }) = some (0, 0, []) := by decide

/-! Witnesses. Each names the claim whose hypotheses it meets. -/

theorem witness_EncodeDecodeIsIdentity : decode 0x7003FF00 = .ok (.credRd 0x3FF) := by decide

theorem witness_IllegalWordRaisesIllegalRequest :
    ∃ s : State, s.err = 0 ∧ s.input = .request 0x11000000 :: [] ∧ decode 0x11000000 = .error .reservedField :=
  ⟨State.reset.withInput [.request 0x11000000], rfl, rfl, by decide⟩

theorem witness_StepRunsDecodedOperation :
    (State.reset.withFetchWord 32 0x50000541).input = .request 0x50000541 :: [] ∧
    decode 0x50000541 = .ok (.dcEnc 0x41 5) := by decide

theorem witness_DecodeProcedureOrder_halted :
    (halted.withFetchWord 32 0xFFFFFFFF).input = .request 0xFFFFFFFF :: [] ∧ halted.err ≠ 0 := by decide

theorem witness_DecodeProcedureOrder_illegal :
    (State.reset.withFetchWord 32 0x90000200).input = .request 0x90000200 :: [] ∧ State.reset.err = 0 ∧
    selectedRows 0x90000200 = [] := by decide

theorem witness_DecodeProcedureOrder_legal :
    (State.reset.withFetchWord 32 0x900001FF).input = .request 0x900001FF :: [] ∧ State.reset.err = 0 ∧
    selectedRows 0x900001FF ≠ [] := by decide

theorem witness_HaltedBlockPerformsNothing :
    halted.err ≠ 0 ∧ (halted.withFetchWord 32 0xB0000028).input = .request 0xB0000028 :: [] := by decide

theorem witness_BlockWaitsWithoutInput : State.reset.input = [] := rfl

theorem witness_ResetInputLeavesResetState :
    (halted.withInput [.reset (some 0x80000000)]).input = .reset (some 0x80000000) :: [] := rfl

/-- A state that is not the reset state and meets the store invariant, with a step from it. -/
theorem witness_StepKeepsStoresCanonical :
    (fixture 0).storesWf = true ∧ ∃ t, step ((fixture 0).withFetchWord 32 0x80000000) = .next t :=
  ⟨by decide, _, rfl⟩

theorem witness_StepKeepsErrLegal : halted.errLegal ∧ ∃ t, step (halted.withFetchWord 32 0x30000000) = .next t :=
  ⟨.inr (.inl rfl), _, rfl⟩

/-- Nine groups of zero bytes (V44) in the code store. -/
def nineGroups : State :=
  { State.reset with
    code := Memory.writeList [] 0 ([216, 296, 81, 120, 297, 264, 216, 298, 232, 264, 299, 72, 248, 300, 97, 88, 301, 280] ++
      [248, 302, 248, 168, 303, 88, 232, 304, 72])
    ncodes := 27 }

theorem nineGroups_codesLegal : nineGroups.codesLegal :=
  ⟨9, by decide, by decide, by decide, by decide, by decide⟩

theorem witness_StepKeepsCodesLegal :
    (nineGroups.withFetchWord 32 0x9000001A).codesLegal ∧
    ∃ t, step (nineGroups.withFetchWord 32 0x9000001A) = .next t :=
  ⟨nineGroups_codesLegal, _, rfl⟩

/-- A halted block with a success before the error and one answer after it (P3). -/
def haltedHistory : State := { halted with rsps := [⟨0, 0x5E⟩, ⟨1, 0⟩] }

theorem witness_StepKeepsHistoryLegal :
    haltedHistory.historyLegal ∧ ∃ t, step (haltedHistory.withFetchWord 32 0x30000000) = .next t :=
  ⟨⟨[⟨0, 0x5E⟩], [⟨1, 0⟩], rfl, by decide, by decide, by decide⟩, _, rfl⟩

/-- A block that has emitted one datagram. -/
def emitted : State := { State.reset with out := [List.replicate 57 Config.fill] }

theorem witness_StepKeepsOutputLegal :
    emitted.outputLegal ∧ ∃ t, step (emitted.withFetchWord 32 0xB0000028) = .next t := by
  refine ⟨fun d hd => ⟨57, ?_⟩, _, rfl⟩
  simpa [emitted] using hd

theorem witness_ErrIsStickyUntilReset :
    ∃ t, halted.err ≠ 0 ∧ step (halted.withInput [.reset none]) = .next t ∧ t.err ≠ (halted.withInput [.reset none]).err :=
  ⟨_, by decide, rfl, by decide⟩

theorem witness_OneResponsePerRequest :
    (State.reset.withFetchWord 32 0xB0000028).input = .request 0xB0000028 :: [] := by decide

/-- `ERR = 0`, the one hypothesis of the claims about a single operation of the CRC engine, of `DC.ENC` below the bound,
of `CRED.WR`, `CRED.RD`, `CODE.CNT`, `MAT.GEN`, of the buffer sequence and of the pseudo-operations, in a state that is
not the reset state. -/
def running : State := { fixture 1 with run := 0x60, ncodes := 3 }

theorem witness_CrcRstStartsACrc : running.err = 0 := rfl

theorem witness_CrcUpdFeedsOneByte : running.err = 0 := rfl

theorem witness_CrcGetRespondsRun : running.err = 0 := rfl

theorem witness_CrcLutRespondsTableEntry : running.err = 0 := rfl

theorem witness_CrcBufferSequenceRespondsCrc8 : running.err = 0 := rfl

theorem witness_CrcTableIsLinearPermutation : crcTable 0x03 = crcTable 0x03 := rfl

theorem witness_Crc8IndependentOfRunningWidth : 8 ≤ 8 ∧ 8 ≤ 16 := by decide

theorem witness_Crc8Properties : running.err = 0 ∧ running.run = crc8 [0x41, 0x05] := by decide +kernel

theorem witness_DcEncRespondsDataCode_legal : running.err = 0 ∧ (127 : Byte).toNat ≤ 127 := by decide

theorem witness_DcEncRespondsDataCode_illegal : running.err = 0 ∧ 127 < (128 : Byte).toNat := by decide

theorem witness_DataCodeIsInjective : ∃ g, dataCode 0x41 127 = .ok g := ⟨_, rfl⟩

theorem witness_GroupCodesOfOneGroup : (127 : Byte).toNat ≤ 127 := by decide

/-- A credential of the largest Datum: 119 password bytes (V45, V46). -/
def largest : Credential :=
  { ssid := List.replicate 127 0, pwd := List.replicate 119 0, bssid := List.replicate 6 0, ip := [0, 0, 0, 0],
    hidden := false }

theorem witness_DatumCodesAreTheGroupCodes :
    largest.ip.length = 4 ∧ 9 + largest.pwd.length + largest.ssid.length ≤ 255 ∧ largest.groupCount ≤ 128 ∧
    largest.values[127]? = some 0 := by decide +kernel

theorem witness_DatumCodesFailsExactlyOnLengths_value :
    ∃ c : Credential, c.ip.length = 4 ∧ 255 < 9 + c.pwd.length + c.ssid.length :=
  ⟨{ largest with ssid := List.replicate 128 0 }, by decide +kernel, by decide +kernel⟩

theorem witness_DatumCodesFailsExactlyOnLengths_index :
    ∃ c : Credential, c.ip.length = 4 ∧ 9 + c.pwd.length + c.ssid.length ≤ 255 ∧
      128 < 9 + c.pwd.length + (if c.hidden then c.ssid.length else 0) :=
  ⟨{ largest with pwd := List.replicate 120 0, ssid := [] }, by decide +kernel, by decide +kernel, by decide +kernel⟩

theorem witness_DatumCodesFailsExactlyOnLengths_ok :
    largest.ip.length = 4 ∧ 9 + largest.pwd.length + largest.ssid.length ≤ 255 ∧
    9 + largest.pwd.length + (if largest.hidden then largest.ssid.length else 0) ≤ 128 := by decide +kernel

theorem witness_DatumValueSequence :
    largest.ip.length = 4 ∧ (3 : Nat) < 4 ∧ 118 < largest.pwd.length := by decide +kernel

theorem witness_DatumEncEncodesCredential :
    (lengths 119 127 0).err = 0 ∧ (lengths 119 127 0).declaredTotal ≤ 255 ∧ (lengths 119 127 0).declaredGroups ≤ 128 := by
  decide

theorem witness_DatumEncFaultsExactlyOnLengths_value :
    (lengths 119 128 0).err = 0 ∧ 255 < (lengths 119 128 0).declaredTotal := by decide

theorem witness_DatumEncFaultsExactlyOnLengths_index :
    (lengths 0 120 1).err = 0 ∧ (lengths 0 120 1).declaredTotal ≤ 255 ∧ 128 < (lengths 0 120 1).declaredGroups := by
  decide

theorem witness_DatumEncFaultsExactlyOnLengths_ok :
    (lengths 0 119 1).err = 0 ∧ (lengths 0 119 1).declaredTotal ≤ 255 ∧ (lengths 0 119 1).declaredGroups ≤ 128 := by decide

theorem witness_DatumEncOverwritesCodeFromZero :
    (fixture 0).err = 0 ∧ (fixture 0).declaredTotal ≤ 255 ∧ (fixture 0).declaredGroups ≤ 128 := by decide

theorem witness_DatumEncIsIdempotent :
    (fixture 1).err = 0 ∧ (fixture 1).declaredTotal ≤ 255 ∧ (fixture 1).declaredGroups ≤ 128 := by decide

theorem witness_HiddenFlagOnlyAppendsGroups :
    (fixture 0).err = 0 ∧ (fixture 0).declaredTotal ≤ 255 ∧
    State.declaredGroups { fixture 0 with hidden := 1 } ≤ 128 := by decide

/-- `PWD[8]`, the first byte beyond the eight of the fixture. -/
theorem witness_DatumEncIgnoresUndeclaredBytes :
    0x108 ∉ (fixture 0).credentialAddresses ∧ ∃ t, exec .datumEnc (fixture 0) = .next t :=
  ⟨by decide, _, rfl⟩

theorem witness_WrittenCredentialDecidesDatumEnc :
    (fixture 1).credentialWritten = true ∧ ∃ t, exec .datumEnc (fixture 1) = .next t :=
  ⟨by decide, _, rfl⟩

theorem witness_ErrorsDependOnNamedValuesOnly :
    running.err = 0 ∧ (lengths 8 4 1).err = 0 ∧ running.pwdlen = (lengths 8 4 1).pwdlen ∧
    running.ssidlen = (lengths 8 4 1).ssidlen ∧ running.hidden = (lengths 8 4 1).hidden := by decide

/-- The claim's clauses exclude one another by their form; one address of each, at a boundary. -/
theorem witness_CredWrWritesAddressedPlace :
    running.err = 0 ∧ credPlace 0x005 = .storage 0x005 ∧ credPlace 0x006 = .reserved ∧ credPlace 0x008 = .storage 0x008 ∧
    credPlace 0x00B = .storage 0x00B ∧ credPlace 0x00C = .reserved ∧ credPlace 0x00F = .reserved ∧
    credPlace 0x010 = .pwdlen ∧ credPlace 0x011 = .ssidlen ∧ credPlace 0x012 = .hidden ∧ credPlace 0x013 = .reserved ∧
    credPlace 0x0FF = .reserved ∧ credPlace 0x100 = .storage 0x100 ∧ credPlace 0x2FF = .storage 0x2FF ∧
    credPlace 0x300 = .reserved := by decide

theorem witness_CredWrChangesOneByte :
    running.err = 0 ∧ isCredStorage (0x1FF : BitVec 10).toNat = true := by decide

theorem witness_CredRdReadsAddressedPlace : running.err = 0 ∧ credPlace 0x3FF = .reserved := by decide

theorem witness_CredWrThenCredRdRoundTrip : running.err = 0 ∧ credPlace 0x012 ≠ .reserved := by decide

theorem witness_CodeRdReadsValidEntry_valid :
    nineGroups.err = 0 ∧ (26 : BitVec 9) < nineGroups.ncodes ∧ (26 : BitVec 9).toNat < 384 := by decide

theorem witness_CodeRdReadsValidEntry_beyond : nineGroups.err = 0 ∧ nineGroups.ncodes ≤ (27 : BitVec 9) := by decide

theorem witness_CodeRdReadsValidEntry_top : nineGroups.err = 0 ∧ 384 ≤ (384 : BitVec 9).toNat := by decide

theorem witness_CodeRdRespondsLegalCode :
    nineGroups.codesLegal ∧ nineGroups.err = 0 ∧ (25 : BitVec 9) < nineGroups.ncodes ∧ (25 : BitVec 9).toNat % 3 = 1 :=
  ⟨nineGroups_codesLegal, by decide⟩

theorem witness_CodeCntRespondsNcodes : running.err = 0 ∧ nineGroups.codesLegal := ⟨rfl, nineGroups_codesLegal⟩

theorem witness_MatGenEmitsOneDatagram : running.err = 0 := rfl

theorem witness_OnlyMatGenTouchesOut :
    running.err = 0 ∧ ∃ t, exec (.matGen 0) running = .next t ∧ t.out ≠ running.out := by
  refine ⟨rfl, _, rfl, ?_⟩
  decide

theorem witness_OnlyMatGenTouchesOut_request :
    ∃ t, step (running.withFetchWord 32 0xB0000000) = .next t ∧ t.out ≠ running.out := by
  refine ⟨_, rfl, ?_⟩
  decide

theorem witness_OnlyMatGenTouchesOut_reset :
    ∃ t, step (emitted.withInput [.reset none]) = .next t ∧ t.out ≠ emitted.out := by
  refine ⟨_, rfl, ?_⟩
  decide

theorem witness_CodeRdReadsValidEntry_range : nineGroups.codesLegal ∧ (26 : BitVec 9) < nineGroups.ncodes :=
  ⟨nineGroups_codesLegal, by decide⟩

theorem witness_OperationsWriteOnlyWhatTheyName :
    ∃ t, exec (.credWr 0x010 0x77) running = .next t ∧ t.pwdlen ≠ running.pwdlen :=
  ⟨_, rfl, by decide⟩

theorem witness_ReadingOperationsFrame : readsOnly (.codeRd 2) = true ∧ ∃ t, exec (.codeRd 2) threeCodes = .next t :=
  ⟨rfl, _, rfl⟩

theorem witness_CrcAndMatGenFrame :
    (∃ t, exec .crcRst running = .next t) ∧ (∃ t, exec (.crcUpd 0x41) running = .next t) ∧
    ∃ t, exec (.matGen 40) running = .next t :=
  ⟨⟨_, rfl⟩, ⟨_, rfl⟩, ⟨_, rfl⟩⟩

theorem witness_RaisedErrorsByOperation :
    running.err = 0 ∧ ∃ t, exec (.credRd 0x013) running = .next t ∧ t.err = 5 :=
  ⟨rfl, _, rfl, by decide⟩

theorem witness_LoadingPasswordAndSsid :
    running.err = 0 ∧ (List.replicate 255 (0 : Byte)).length ≤ 255 := by decide +kernel

theorem witness_CodeCntRespondsNcodes_success :
    (lengths 0 0 0).err = 0 ∧ (lengths 0 0 0).declaredTotal ≤ 255 ∧ (lengths 0 0 0).declaredGroups ≤ 128 := by decide

theorem witness_LoadingBssidIpAndHidden_bssid :
    running.err = 0 ∧ [0xAA, 0xBB, 0xCC, 0xDD, 0xEE, (0xFF : Byte)].length = 6 := by decide

theorem witness_LoadingBssidIpAndHidden_ip : running.err = 0 ∧ [192, 168, 1, (1 : Byte)].length = 4 := by decide

/-- A flag the state does not hold already. -/
theorem witness_LoadingBssidIpAndHidden_hidden : running.err = 0 ∧ running.hidden ≠ (0 : BitVec 1) := by decide

/-- The last declared byte of the password and of the SSID. -/
theorem witness_CredentialReadsTheAddressedBytes : 7 < running.pwdlen.toNat ∧ 3 < running.ssidlen.toNat := by decide

end Sys2Proof.Tests
end

section
/-! The proofs of the statements about the state: what every answer to a request can do, the invariants every step keeps,
the frame of each operation, the output history, and the loading of the credential. -/

namespace Sys2Proof.Machine

/-! ### The datum encoder's result -/

@[simp] theorem State.credential_ip_length (s : State) : s.credential.ip.length = 4 := by
  simp [State.credential, Config.ipLen]

/-- The value sequence has one value per group (R93, R94). -/
theorem Credential.values_length {c : Credential} (hip : c.ip.length = 4) : c.values.length = c.groupCount := by
  simp only [Credential.values, Credential.groupCount, Config.headerCodes, Config.ipLen, List.length_append,
    List.length_cons, List.length_nil, hip]
  split_ifs <;> simp

/-- A datum has the five header groups and the four of the address at least (R94). -/
theorem Credential.nine_le_groupCount (c : Credential) : 9 ≤ c.groupCount := by
  simp only [Credential.groupCount, Config.headerCodes, Config.ipLen]
  omega

/-- Within both bounds `DatumCodes` succeeds with the pairs of every group (R97, R99). -/
theorem datumCodes_of_bounds {c : Credential} (hip : c.ip.length = 4) (hTotal : c.totalLen ≤ 255)
    (hGroups : c.groupCount ≤ 128) : datumCodes c = .ok (pairCodes (flatFrom 0 c.values)) := by
  have hFlat : flattenGroups 0 c.values = .ok (flatFrom 0 c.values) :=
    flattenGroups_ok 0 c.values (by rw [Credential.values_length hip]; omega)
  simp [datumCodes, hFlat, Nat.not_lt.2 hTotal]

/-- The codes of the groups from index `i` up are the codes of each group in turn (R83, R96, R97). -/
theorem pairCodes_flatFrom_cons (i : Nat) (v : Byte) (vs : List Byte) :
    pairCodes (flatFrom i (v :: vs)) = groupCodes v (BitVec.ofNat 8 i) ++ pairCodes (flatFrom (i + 1) vs) := rfl

theorem pairCodes_flatFrom_length (i : Nat) (vs : List Byte) : (pairCodes (flatFrom i vs)).length = 3 * vs.length := by
  induction vs generalizing i with
  | nil => rfl
  | cons v rest ih => simp [pairCodes_flatFrom_cons, groupCodes, ih]; omega

/-- Entry `3j + m` is code `m` of the group of value `j` (R97). -/
theorem pairCodes_flatFrom_getElem? (i : Nat) {vs : List Byte} {j : Nat} {v : Byte} (hv : vs[j]? = some v) {m : Nat}
    (hm : m < 3) :
    (pairCodes (flatFrom i vs))[3 * j + m]? = (groupCodes v (BitVec.ofNat 8 (i + j)))[m]? := by
  induction vs generalizing i j with
  | nil => simp at hv
  | cons w rest ih =>
    have hlen : (groupCodes w (BitVec.ofNat 8 i)).length = 3 := rfl
    rw [pairCodes_flatFrom_cons]
    cases j with
    | zero =>
      obtain rfl : w = v := by simpa using hv
      rw [List.getElem?_append_left (by omega)]
      simp
    | succ j =>
      rw [List.getElem?_append_right (by omega), hlen, show 3 * (j + 1) + m - 3 = 3 * j + m by omega,
        ih (i + 1) (by simpa using hv), show i + 1 + j = i + (j + 1) by omega]

/-- The sum of R97 as a number: no pair of a group reaches 16 bits' end. -/
theorem pairCode_toNat (first second : Byte) (h : first.toNat ≤ 1) :
    (pairCode first second).toNat = 256 * first.toNat + second.toNat + 40 := by
  have := second.isLt
  simp only [pairCode, Config.extraLen, BitVec.toNat_setWidth, BitVec.toNat_add, BitVec.toNat_append,
    BitVec.toNat_ofNat]
  rw [← Nat.shiftLeft_add_eq_or_of_lt this]
  simp only [Nat.shiftLeft_eq]
  omega

/-- The three codes of one group as numbers (R83). -/
theorem groupCodes_toNat (v x : Byte) :
    (groupCodes v x).map BitVec.toNat =
      [(groupLayout v x).g1.toNat + 40, x.toNat + 296, (groupLayout v x).g5.toNat + 40] := by
  simp [groupCodes, groupLayout, pairCode_toNat]
  omega

/-! ### What an operation writes, and how a request is answered -/

/-- What an operation that completes writes before it responds (R10, R18, R30): the registers, stores and output history
of `s` afterwards. -/
inductive Writes (s : State) : Instr → State → Prop
  | nothing {i : Instr} (h : readsOnly i = true) : Writes s i s
  | crcRst : Writes s .crcRst (s.setRun Config.crcInitial)
  | crcUpd (b : Byte) : Writes s (.crcUpd b) (s.setRun (crcStep s.run b))
  | storage (a : BitVec 10) (b : Byte) (h : isCredStorage a.toNat = true) :
      Writes s (.credWr a b) (s.writeCred a.toNat b)
  | pwdlen (b : Byte) : Writes s (.credWr 0x010 b) (s.setPwdlen b)
  | ssidlen (b : Byte) : Writes s (.credWr 0x011 b) (s.setSsidlen b)
  | hidden (b : Byte) : Writes s (.credWr 0x012 b) (s.setHidden (b.extractLsb' 0 1))
  | datumEnc (hTotal : s.credential.totalLen ≤ 255) (hGroups : s.credential.groupCount ≤ 128) :
      Writes s .datumEnc (s.storeCodes (pairCodes (flatFrom 0 s.credential.values))
        (BitVec.ofNat 9 (3 * s.credential.groupCount)))
  | matGen (c : Code) : Writes s (.matGen c) (s.emit (materialize c))

/-- The answers to a request that selects an operation, or none for an illegal word: the halted answer (R167), a raised
error (R166), or the operation's writes and its response. -/
inductive Answered (s : State) : Option Instr → State → Prop
  | halted {o : Option Instr} (h : s.err ≠ 0) : Answered s o s.respondHalted
  | raised {o : Option Instr} (h : s.err = 0) (e : Error) (he : e ≠ .malformedAddress) : Answered s o (s.raise e)
  | completed {i : Instr} {u : State} (h : s.err = 0) (hw : Writes s i u) (data : RspData) :
      Answered s (some i) (u.respond data)

section

variable {s u : State} {i : Instr}

/-- No operation writes `ERR`, the responses, the host's inputs or the draw before it responds. -/
theorem Writes.err_eq (h : Writes s i u) : u.err = s.err := by cases h <;> rfl
theorem Writes.rsps_eq (h : Writes s i u) : u.rsps = s.rsps := by cases h <;> rfl
theorem Writes.input_eq (h : Writes s i u) : u.input = s.input := by cases h <;> rfl
theorem Writes.draw_eq (h : Writes s i u) : u.draw = s.draw := by cases h <;> rfl

end

/-- The registers of the map of R32 stand at one address each. -/
theorem credPlace_register_iff (a : BitVec 10) :
    (credPlace a = .pwdlen ↔ a = 0x010) ∧ (credPlace a = .ssidlen ↔ a = 0x011) ∧
      (credPlace a = .hidden ↔ a = 0x012) := by
  by_cases hPwd : a = 0x010
  · subst hPwd; decide
  by_cases hSsid : a = 0x011
  · subst hSsid; decide
  by_cases hHidden : a = 0x012
  · subst hHidden; decide
  unfold credPlace
  split_ifs <;> simp_all

/-- `CRED.WR` completes at every address that is not reserved (R100). -/
theorem credWr_completes {s : State} (h : s.err = 0) {a : BitVec 10} (b : Byte) (ha : credPlace a ≠ .reserved) :
    ∃ u, Writes s (.credWr a b) u ∧ exec (.credWr a b) s = .next (u.respond 0) := by
  obtain ⟨hPwd, hSsid, hHidden⟩ := credPlace_register_iff a
  rw [execCredWr_running h]
  cases hp : credPlace a with
  | storage n =>
    obtain ⟨hn, rfl⟩ := (credPlace_storage_iff a n).1 hp
    exact ⟨_, .storage a b hn, rfl⟩
  | pwdlen =>
    obtain rfl := hPwd.1 hp
    exact ⟨_, .pwdlen b, rfl⟩
  | ssidlen =>
    obtain rfl := hSsid.1 hp
    exact ⟨_, .ssidlen b, rfl⟩
  | hidden =>
    obtain rfl := hHidden.1 hp
    exact ⟨_, .hidden b, rfl⟩
  | reserved => exact absurd hp ha

/-- `CRED.WR` raises an error at a reserved address and completes at every other (R100). -/
theorem credWr_answered {s t : State} (h : s.err = 0) (a : BitVec 10) (b : Byte)
    (ht : exec (.credWr a b) s = .next t) : Answered s (some (.credWr a b)) t := by
  by_cases ha : credPlace a = .reserved
  · rw [execCredWr_running h, ha] at ht
    obtain rfl := Host.Outcome.next.inj ht
    exact .raised h _ (by decide)
  · obtain ⟨u, hw, hu⟩ := credWr_completes h b ha
    obtain rfl := Host.Outcome.next.inj (hu.symm.trans ht)
    exact .completed h hw 0

/-- `CRED.RD` raises an error at a reserved address and responds at every other (R101). -/
theorem credRd_answered {s t : State} (h : s.err = 0) (a : BitVec 10) (ht : exec (.credRd a) s = .next t) :
    Answered s (some (.credRd a)) t := by
  rw [execCredRd_running h] at ht
  obtain rfl := Host.Outcome.next.inj ht
  cases credPlace a with
  | reserved => exact .raised h _ (by decide)
  | _ => exact .completed h (.nothing rfl) _

/-- `DATUM.ENC` raises an error where a length is out of bounds and else completes: after the two tests the encoder cannot
fail (R102). -/
theorem datumEnc_answered {s t : State} (h : s.err = 0) (ht : exec .datumEnc s = .next t) :
    Answered s (some .datumEnc) t := by
  rw [execDatumEnc_running h] at ht
  split_ifs at ht with hTotal hGroups
  · obtain rfl := Host.Outcome.next.inj ht
    exact .raised h _ (by decide)
  · obtain rfl := Host.Outcome.next.inj ht
    exact .raised h _ (by decide)
  · have hGroups : s.credential.groupCount ≤ 128 := Nat.not_lt.1 hGroups
    rw [datumCodes_of_bounds s.credential_ip_length (Nat.not_lt.1 hTotal) hGroups] at ht
    obtain rfl := Host.Outcome.next.inj ht
    exact .completed h (.datumEnc (Nat.not_lt.1 hTotal) hGroups) _

/-- What an operation can do. -/
theorem exec_answered {s t : State} {i : Instr} (ht : exec i s = .next t) : Answered s (some i) t := by
  by_cases h : s.err = 0
  · cases i with
    | crcRst => rw [execCrcRst_running h] at ht; cases ht; exact .completed h .crcRst _
    | crcUpd b => rw [execCrcUpd_running h] at ht; cases ht; exact .completed h (.crcUpd b) _
    | crcGet => rw [execCrcGet_running h] at ht; cases ht; exact .completed h (.nothing rfl) _
    | crcLut n => rw [execCrcLut_running h] at ht; cases ht; exact .completed h (.nothing rfl) _
    | dcEnc v x =>
      rw [execDcEnc_running h] at ht
      cases ht
      split_ifs
      · exact .completed h (.nothing rfl) _
      · exact .raised h _ (by decide)
    | credWr a b => exact credWr_answered h a b ht
    | credRd a => exact credRd_answered h a ht
    | datumEnc => exact datumEnc_answered h ht
    | codeRd k =>
      rw [execCodeRd_running h] at ht
      cases ht
      split_ifs
      · exact .raised h _ (by decide)
      · exact .completed h (.nothing rfl) _
    | codeCnt => rw [execCodeCnt_running h] at ht; cases ht; exact .completed h (.nothing rfl) _
    | matGen c => rw [execMatGen_running h] at ht; cases ht; exact .completed h (.matGen c) _
  · rw [exec_halted h] at ht
    cases ht
    exact .halted h

/-- What an illegal word can do (R50, R169). -/
theorem answerIllegal_answered (s : State) : Answered s none (answerIllegal s) := by
  unfold answerIllegal
  rcases answer_cases s (fun s => s.raise .illegalRequest) with ⟨h, e⟩ | ⟨h, e⟩ <;> rw [e]
  · exact .halted h
  · exact .raised h _ (by decide)

/-- What a step to `t` can do: wait, reset, or answer the oldest request. -/
theorem step_answered {s t : State} (ht : step s = .next t) :
    t = s ∨ (∃ abandoned rest, s.input = .reset abandoned :: rest ∧ t = (s.withInput rest).afterReset) ∨
    ∃ req rest o, s.input = .request req :: rest ∧ (decode req).toOption = o ∧ Answered (s.withInput rest) o t := by
  rcases step_cases s with
    ⟨_, e⟩ | ⟨abandoned, rest, hi, e⟩ | ⟨req, rest, i, hi, hd, e⟩ | ⟨req, rest, _, hi, hd, e⟩ <;>
    rw [e] at ht
  · exact .inl (Host.Outcome.next.inj ht).symm
  · exact .inr (.inl ⟨abandoned, rest, hi, (Host.Outcome.next.inj ht).symm⟩)
  · exact .inr (.inr ⟨req, rest, _, hi, by rw [hd]; rfl, exec_answered ht⟩)
  · exact .inr (.inr ⟨req, rest, _, hi, by rw [hd]; rfl, Host.Outcome.next.inj ht ▸ answerIllegal_answered _⟩)

/-- A property of the block that does not speak of the host's inputs, holds after reset and is kept by every answer is kept
by every step. -/
theorem step_keeps {P : State → Prop} (hInput : ∀ s rest, P s → P (s.withInput rest))
    (hReset : ∀ s : State, P s.afterReset) (hAnswer : ∀ s o t, P s → Answered s o t → P t) {s t : State} (hs : P s) (ht : step s = .next t) : P t := by
  rcases step_answered ht with rfl | ⟨_, rest, _, rfl⟩ | ⟨_, rest, _, _, _, ha⟩
  · exact hs
  · exact hReset _
  · exact hAnswer _ _ _ (hInput s rest hs) ha

/-! ### The invariants -/

/-- `codesLegal` speaks of `NCODES`, the code store and the draw alone. -/
theorem State.codesLegal_congr {s t : State} (hn : t.ncodes = s.ncodes) (hc : t.code = s.code) (hd : t.draw = s.draw)
    (h : s.codesLegal) : t.codesLegal := by
  simpa only [State.codesLegal, State.codeEntry, hn, hc, hd] using h

/-- No codes are legal codes: the state of R22. -/
theorem State.codesLegal_of_ncodes_zero {s : State} (h : s.ncodes = 0) : s.codesLegal :=
  ⟨0, by simp [h]⟩

/-- The entries of the list `DATUM.ENC` stores, by index, group and place in the group (R83, R96). -/
theorem encodedCode_toNat {vs : List Byte} (hvs : vs.length ≤ 128) {i : Nat} (hi : i < vs.length) :
    ∃ g : Group, ((pairCodes (flatFrom 0 vs)).map BitVec.toNat)[3 * i]? = some (g.g1.toNat + 40) ∧
      ((pairCodes (flatFrom 0 vs)).map BitVec.toNat)[3 * i + 1]? = some (i + 296) ∧
      ((pairCodes (flatFrom 0 vs)).map BitVec.toNat)[3 * i + 2]? = some (g.g5.toNat + 40) := by
  have hEntry (m : Nat) (hm : m < 3) : ((pairCodes (flatFrom 0 vs)).map BitVec.toNat)[3 * i + m]? =
      ((groupCodes vs[i] (BitVec.ofNat 8 i)).map BitVec.toNat)[m]? := by
    rw [List.getElem?_map, pairCodes_flatFrom_getElem? 0 (List.getElem?_eq_getElem hi) hm, Nat.zero_add,
      List.getElem?_map]
  refine ⟨groupLayout vs[i] (BitVec.ofNat 8 i), ?_, ?_, ?_⟩
  · rw [← Nat.add_zero (3 * i), hEntry 0 (by omega), groupCodes_toNat]; rfl
  · rw [hEntry 1 (by omega), groupCodes_toNat]
    simp
    omega
  · rw [hEntry 2 (by omega), groupCodes_toNat]; rfl

/-- What `DATUM.ENC` stores for a value sequence of 9 to 128 values is a legal code store (R16, R98). -/
theorem State.storeCodes_codesLegal (s : State) {vs : List Byte} (hMin : 9 ≤ vs.length) (hMax : vs.length ≤ 128) :
    (s.storeCodes (pairCodes (flatFrom 0 vs)) (BitVec.ofNat 9 (3 * vs.length))).codesLegal := by
  have hLength : (pairCodes (flatFrom 0 vs)).length = 3 * vs.length := pairCodes_flatFrom_length 0 vs
  have hEntry {k c : Nat} (h : ((pairCodes (flatFrom 0 vs)).map BitVec.toNat)[k]? = some c) :
      ((s.storeCodes (pairCodes (flatFrom 0 vs)) (BitVec.ofNat 9 (3 * vs.length))).codeEntry k).toNat = c := by
    obtain ⟨hk, hc⟩ := List.getElem?_eq_some_iff.1 h
    rw [s.storeCodes_codeEntry_inside _ _ k (by simpa using hk), ← hc, List.getElem_map]
  refine ⟨vs.length, ?_, .inr hMin, hMax, fun k hk => ?_, fun i hi => ?_⟩
  · rw [State.storeCodes_ncodes, BitVec.toNat_ofNat]
    omega
  · have := Memory.find_writeList_inside s.code 0 (pairCodes (flatFrom 0 vs)) k (by omega)
    rw [Nat.zero_add] at this
    rw [State.storeCodes_code, this, Option.isSome_some]
  · obtain ⟨g, hFirst, hMiddle, hLast⟩ := encodedCode_toNat hMax hi
    have := g.g1.isLt
    have := g.g5.isLt
    rw [hEntry hFirst, hEntry hMiddle, hEntry hLast]
    omega

/-- Only `DATUM.ENC` writes the code store, and it writes legal codes. -/
theorem Writes.codesLegal {s u : State} {i : Instr} (hs : s.codesLegal) (hw : Writes s i u) : u.codesLegal := by
  cases hw with
  | datumEnc _ hGroups =>
    have hMin := s.credential.nine_le_groupCount
    rw [← Credential.values_length s.credential_ip_length] at hMin hGroups ⊢
    exact s.storeCodes_codesLegal hMin hGroups
  | _ => exact State.codesLegal_congr rfl rfl rfl hs

/-- Every answer keeps the code store legal. -/
theorem Answered.codesLegal {s t : State} {o : Option Instr} (hs : s.codesLegal) (h : Answered s o t) :
    t.codesLegal := by
  cases h with
  | halted => exact State.codesLegal_congr rfl rfl rfl hs
  | raised => exact State.codesLegal_congr rfl rfl rfl hs
  | completed _ hw =>
    have hu := hw.codesLegal hs
    exact State.codesLegal_congr rfl rfl rfl hu

/-- Settles O15: reset leaves no code, and every answer keeps the code store legal. -/
theorem stepKeepsCodesLegal : Obligations.StepKeepsCodesLegal := fun _ _ hs ht =>
  step_keeps (P := State.codesLegal) (fun _ _ h => h) (fun _ => State.codesLegal_of_ncodes_zero rfl)
    (fun _ _ _ => Answered.codesLegal) hs ht

/-- While the block runs the responses since reset are successes (R46). -/
theorem State.historyLegal_iff_of_running {s : State} (h : s.err = 0) :
    s.historyLegal ↔ ∀ r ∈ s.rsps, r.err = 0 := by
  constructor
  · rintro ⟨done, refused, hRsps, hDone, _, hRefused⟩
    rw [hRsps, hRefused.1 h, List.append_nil]
    exact hDone
  · intro hDone
    exact ⟨s.rsps, [], (List.append_nil _).symm, hDone, by simp, by simp [h]⟩

/-- Every answer keeps the response history legal: a success follows successes, a raised error is the first answer that
carries `ERR`, and a halted block answers with the same error again. -/
theorem Answered.historyLegal {s t : State} {o : Option Instr} (hs : s.historyLegal) (h : Answered s o t) :
    t.historyLegal := by
  cases h with
  | halted hErr =>
    obtain ⟨done, refused, hRsps, hDone, hRefused, hEmpty⟩ := hs
    refine ⟨done, refused ++ [⟨s.err, 0⟩], by simp [hRsps], hDone, fun r hr => ?_,
      by simpa using hErr⟩
    rcases List.mem_append.1 hr with hr | hr
    · exact hRefused r hr
    · exact List.mem_singleton.1 hr
  | raised hErr e =>
    exact ⟨s.rsps, [⟨e.code, 0⟩], rfl, (State.historyLegal_iff_of_running hErr).1 hs, by simp,
      by cases e <;> simp [Error.code]⟩
  | @completed i u hErr hw data =>
    have hDone := (State.historyLegal_iff_of_running hErr).1 hs
    rw [State.historyLegal_iff_of_running (by rw [State.respond_err, hw.err_eq, hErr]), State.respond_rsps, hw.rsps_eq]
    simpa [or_imp, forall_and] using hDone

/-- Settles O16: there is no response after reset, and every answer keeps the history legal. -/
theorem stepKeepsHistoryLegal : Obligations.StepKeepsHistoryLegal := fun _ _ hs ht =>
  step_keeps (P := State.historyLegal) (fun _ _ h => h)
    (fun s => (State.historyLegal_iff_of_running s.afterReset_err).2 (by simp)) (fun _ _ _ => Answered.historyLegal) hs ht

/-- Settles O18: a halted block answers a request with `ERR` as it was. -/
theorem errIsStickyUntilReset : Obligations.ErrIsStickyUntilReset := by
  intro s t hErr ht hChanged
  rcases step_answered ht with rfl | ⟨abandoned, rest, hi, _⟩ | ⟨_, rest, _, _, _, ha⟩
  · exact absurd rfl hChanged
  · exact ⟨abandoned, rest, hi⟩
  · cases ha with
    | halted => exact absurd rfl hChanged
    | raised h => exact absurd h hErr
    | completed h => exact absurd h hErr

/-- Settles O11, by evaluation of the reset state. -/
theorem resetStateValues : Obligations.ResetStateValues := by
  unfold Obligations.ResetStateValues
  decide

/-- Settles O12: with nothing written, no error and no history each invariant holds. -/
theorem resetMeetsEveryInvariant : Obligations.ResetMeetsEveryInvariant :=
  ⟨rfl, .inl rfl, State.codesLegal_of_ncodes_zero rfl,
    (State.historyLegal_iff_of_running (s := State.reset) rfl).2 (by simp [State.reset]),
    by simp [State.outputLegal, State.reset]⟩

/-! ### The frame of each operation -/

/-- What an operation writes is of the fields its definition names (R10, R18, R30). -/
theorem Writes.frame {s u : State} {i : Instr} (hw : Writes s i u) :
    (u.run ≠ s.run → i = .crcRst ∨ ∃ b, i = .crcUpd b) ∧
    (u.pwdlen ≠ s.pwdlen → ∃ b, i = .credWr 0x010 b) ∧
    (u.ssidlen ≠ s.ssidlen → ∃ b, i = .credWr 0x011 b) ∧
    (u.hidden ≠ s.hidden → ∃ b, i = .credWr 0x012 b) ∧
    (u.ncodes ≠ s.ncodes → i = .datumEnc) ∧
    (∀ n, u.credByte n ≠ s.credByte n → ∃ a b, i = .credWr a b ∧ a.toNat = n) ∧
    (∀ k, u.codeEntry k ≠ s.codeEntry k → i = .datumEnc) ∧
    (u.out ≠ s.out → ∃ c, i = .matGen c) := by
  cases hw with
  | storage a b =>
    have hOther (n : Nat) (hn : (s.writeCred a.toNat b).credByte n ≠ s.credByte n) : a.toNat = n :=
      by_contra fun h => hn (s.writeCred_credByte_other b (Ne.symm h))
    simpa using hOther
  | _ => simp

/-- Settles O53: an error or the halted answer writes none of them, a completed operation what it names. -/
theorem operationsWriteOnlyWhatTheyName : Obligations.OperationsWriteOnlyWhatTheyName := by
  intro i s t ht
  cases exec_answered ht with
  | halted => simp
  | raised => simp
  | completed _ hw =>
    obtain ⟨hRun, hPwdlen, hSsidlen, hHidden, hNcodes, hCred, hCode, hOut⟩ := hw.frame
    exact ⟨hRun, hPwdlen, hSsidlen, hHidden, hNcodes, hCred, hCode, hOut, hw.input_eq, hw.draw_eq⟩

/-! ### The output history -/

/-- `OUT` as an answer leaves it: `MAT.GEN c` in a running block adds one datagram of `c` bytes, nothing else touches it
(R19). -/
theorem Answered.out_cases {s t : State} {o : Option Instr} (h : Answered s o t) :
    t.out = s.out ∨ ∃ c, o = some (.matGen c) ∧ s.err = 0 ∧ t.out = s.out ++ [materialize c] := by
  cases h with
  | halted => exact .inl rfl
  | raised => exact .inl rfl
  | completed hErr hw =>
    cases hw with
    | matGen c => exact .inr ⟨c, rfl, hErr, rfl⟩
    | _ => exact .inl rfl

/-- R120: as many bytes as the code says. -/
@[simp] theorem materialize_length (c : Code) : (materialize c).length = c.toNat := List.length_replicate

/-- The bits a row leaves free, put back beside its fixed bits, give the word (R48). -/
theorem or_of_and_eq {w : Nat} {req mask fixed : BitVec w} (h : req &&& mask = fixed) :
    fixed ||| (req &&& ~~~mask) = req := by
  rw [← h, ← BitVec.and_or_distrib_left, BitVec.or_not_self, BitVec.and_allOnes]

/-- A word the decoder reads as `MAT.GEN c` is in that row, with `c` its operand (R48, R49). -/
theorem matGen_row_of_decode {req : Word} {c : Code} (h : decode req = .ok (.matGen c)) :
    req &&& 0xFFFF0000 = 0xB0000000 ∧ req.extractLsb' 0 16 = c := by
  simp only [decode, apply_ite (· = Except.ok (Instr.matGen c)), Except.ok.injEq, reduceCtorEq, Instr.matGen.injEq,
    if_false_right, if_false_left] at h
  obtain ⟨-, -, -, -, -, -, -, -, -, -, hRow⟩ := h
  exact hRow

/-- A word the decoder reads as `MAT.GEN c` is the word of `MAT.GEN c` (R121). -/
theorem encode_matGen_of_decode {req : Word} {c : Code} (h : decode req = .ok (.matGen c)) :
    encode (.matGen c) = req := by
  obtain ⟨hRow, rfl⟩ := matGen_row_of_decode h
  have hField : (req.extractLsb' 0 16).setWidth 32 = req &&& ~~~(0xFFFF0000 : Word) := by
    apply BitVec.eq_of_toNat_eq
    have hLow : req.toNat &&& 65535 = req.toNat % 65536 := Nat.and_two_pow_sub_one_eq_mod req.toNat 16
    simp [hLow]
    omega
  rw [encode, hField, or_of_and_eq hRow]

/-- `OUT` replaced before an answer is replaced after it, where the operation commutes with the replacement. -/
theorem next_answer_withOut {s t : State} {o : List (List Byte)} {f : State → State}
    (hf : ∀ s : State, f { s with out := o } = { f s with out := o })
    (ht : Host.Outcome.next (φ := Fault) (ρ := Refusal) (answer s f) = .next t) :
    Host.Outcome.next (φ := Fault) (ρ := Refusal) (answer { s with out := o } f) = .next { t with out := o } := by
  obtain rfl := Host.Outcome.next.inj ht
  rcases answer_cases s f with ⟨h, e⟩ | ⟨h, e⟩ <;> rw [e]
  · rw [answer_halted (s := { s with out := o }) h]
    rfl
  · rw [answer_running (s := { s with out := o }) h, hf]

/-- No operation but `MAT.GEN` reads or writes `OUT`: its branches test other fields, and each branch leaves `OUT` as it
was (R19). -/
theorem exec_withOut {i : Instr} {s t : State} (hi : ∀ c, i ≠ .matGen c) (ht : exec i s = .next t)
    (o : List (List Byte)) : exec i { s with out := o } = .next { t with out := o } := by
  cases i with
  | crcRst => exact next_answer_withOut (fun _ => rfl) ht
  | crcUpd b => exact next_answer_withOut (fun _ => rfl) ht
  | crcGet => exact next_answer_withOut (fun _ => rfl) ht
  | crcLut n => exact next_answer_withOut (fun _ => rfl) ht
  | dcEnc v x => exact next_answer_withOut (fun s => by dsimp only; cases dataCode v x.toNat <;> rfl) ht
  | credWr a b => exact next_answer_withOut (fun s => by dsimp only; cases credPlace a <;> rfl) ht
  | credRd a => exact next_answer_withOut (fun s => by dsimp only; cases credPlace a <;> rfl) ht
  | datumEnc =>
    refine next_answer_withOut (fun s => ?_) ht
    have hCredential : State.credential { s with out := o } = s.credential := rfl
    simp only [hCredential]
    split_ifs
    · rfl
    · rfl
    · cases datumCodes s.credential <;> rfl
  | codeRd k => exact next_answer_withOut (fun s => by dsimp only; split_ifs <;> rfl) ht
  | codeCnt => exact next_answer_withOut (fun _ => rfl) ht
  | matGen c => exact absurd rfl (hi c)

/-- `MAT.GEN` appends its datagram to whatever `OUT` held, or nothing where the block is halted (R19, R167). -/
theorem exec_matGen_withOut (c : Code) {s t : State} (ht : exec (.matGen c) s = .next t) (o : List (List Byte)) :
    ∃ new, t.out = s.out ++ new ∧ exec (.matGen c) { s with out := o } = .next { t with out := o ++ new } := by
  by_cases h : s.err = 0
  · rw [execMatGen_running h] at ht
    obtain rfl := Host.Outcome.next.inj ht
    exact ⟨[materialize c], rfl, execMatGen_running (s := { s with out := o }) h c⟩
  · rw [exec_halted h] at ht
    obtain rfl := Host.Outcome.next.inj ht
    refine ⟨[], (List.append_nil _).symm, ?_⟩
    rw [List.append_nil]
    exact exec_halted (s := { s with out := o }) h _

/-- Every operation does the same whatever `OUT` holds (R19). -/
theorem exec_ignores_out {i : Instr} {s t : State} (ht : exec i s = .next t) (o : List (List Byte)) :
    ∃ new, t.out = s.out ++ new ∧ exec i { s with out := o } = .next { t with out := o ++ new } := by
  by_cases hi : ∃ c, i = .matGen c
  · obtain ⟨c, rfl⟩ := hi
    exact exec_matGen_withOut c ht o
  · have hi' (c : Code) (h : i = .matGen c) : False := hi ⟨c, h⟩
    have hOut : t.out = s.out := by
      rcases (exec_answered ht).out_cases with h | ⟨c, hc, _⟩
      · exact h
      · exact absurd (Option.some.inj hc) (hi' c)
    exact ⟨[], by rw [hOut, List.append_nil], by rw [List.append_nil]; exact exec_withOut hi' ht o⟩

/-- A step that changes `OUT` is a reset or runs the word of `MAT.GEN` (R19). -/
theorem step_out_cases {s t : State} (ht : step s = .next t) (hOut : t.out ≠ s.out) :
    (∃ abandoned rest, s.input = .reset abandoned :: rest ∧ t.out = []) ∨
    ∃ c rest d, s.input = .request (encode (.matGen c)) :: rest ∧ s.err = 0 ∧ t.out = s.out ++ [d] ∧
      d.length = c.toNat := by
  rcases step_answered ht with rfl | ⟨abandoned, rest, hi, rfl⟩ | ⟨req, rest, o, hi, hd, ha⟩
  · exact absurd rfl hOut
  · exact .inl ⟨abandoned, rest, hi, rfl⟩
  · rcases ha.out_cases with h | ⟨c, rfl, hErr, h⟩
    · exact absurd h hOut
    · have hDecode : decode req = .ok (.matGen c) := by
        cases h : decode req <;> simp_all [Except.toOption]
      exact .inr ⟨c, rest, _, by rw [encode_matGen_of_decode hDecode, hi], hErr, h, materialize_length c⟩

/-- Settles O52: of all answers that of `MAT.GEN` alone touches `OUT`, and no operation's branches test it. -/
theorem onlyMatGenTouchesOut : Obligations.OnlyMatGenTouchesOut := by
  refine ⟨fun s t => step_out_cases, fun i s t ht hOut => ?_, fun c s hErr => ?_, fun i s t o ht => exec_ignores_out ht o,
    rfl⟩
  · rcases (exec_answered ht).out_cases with h | ⟨c, hi, hErr, h⟩
    · exact absurd h hOut
    · exact ⟨c, _, Option.some.inj hi, hErr, h, materialize_length c⟩
  · exact ⟨_, materialize c, execMatGen_running hErr c, rfl⟩

/-! ### Credential bytes -/

/-- Of a byte written to the flag bit 0 is what is read back (R100, R101). -/
theorem hiddenBit_setWidth (b : Byte) : (b.extractLsb' 0 1).setWidth 48 = (b &&& 1).setWidth 48 := by
  apply BitVec.eq_of_toNat_eq
  have hLow : (b &&& 1).toNat = b.toNat % 2 := Nat.and_one_is_mod b.toNat
  rw [BitVec.toNat_setWidth, BitVec.toNat_setWidth, hLow, BitVec.extractLsb'_toNat, Nat.shiftRight_zero, Nat.pow_one]

/-- What `CRED.RD` responds after `CRED.WR` at the same address (R100, R101). -/
theorem credRd_after_write {s u : State} {a : BitVec 10} {b : Byte} (h : s.err = 0) (hw : Writes s (.credWr a b) u) :
    exec (.credRd a) (u.respond 0) =
      .next ((u.respond 0).respond (if a = 0x012 then (b &&& 1).setWidth 48 else b.setWidth 48)) := by
  rw [execCredRd_running (s := u.respond 0) (hw.err_eq.trans h)]
  cases hw with
  | nothing hReads => cases hReads
  | storage _ _ hStorage =>
    have hFlag : a ≠ 0x012 := by
      rintro rfl
      exact absurd hStorage (by decide)
    rw [(credPlace_storage_iff a a.toNat).2 ⟨hStorage, rfl⟩, if_neg hFlag]
    simp
  | pwdlen => rfl
  | ssidlen => rfl
  | hidden =>
    rw [if_pos rfl, ← hiddenBit_setWidth]
    rfl

/-- Settles O47: the write completes, and the read finds what the write put at its place. -/
theorem credWrThenCredRdRoundTrip : Obligations.CredWrThenCredRdRoundTrip := by
  intro s a b h ha
  obtain ⟨u, hw, hu⟩ := credWr_completes h b ha
  refine ⟨_, _, hu, credRd_after_write h hw, ?_⟩
  simp [hw.rsps_eq]

/-! ### Loading the credential -/

/-- An operand of `m` bits placed at bit `start` does not reach the bits from `n` up. -/
theorem operand_and_highMask {w m start n : Nat} (a : BitVec m) (h : m + start ≤ n) :
    a.setWidth w <<< start &&& BitVec.allOnes w <<< n = 0 := by
  ext k hk
  by_cases hkn : k < n
  · simp [hkn]
  · simp [BitVec.getLsbD_of_ge a (k - start) (by omega)]

/-- A word is in no row whose `op` is not its own (R45, R48). -/
theorem and_ne_of_opField_ne {req mask fixed : Word} (hMask : opField mask = BitVec.allOnes 4)
    (h : opField req ≠ opField fixed) : req &&& mask ≠ fixed := by
  rintro rfl
  apply h
  rw [opField] at hMask
  rw [opField, opField, BitVec.extractLsb'_and, hMask, BitVec.and_allOnes]

/-- The word of `CRED.WR a, b` is in its row, with its operands in their fields (R48, R100). -/
theorem encode_credWr_fields (a : BitVec 10) (b : Byte) :
    encode (.credWr a b) &&& 0xFFFC0000 = 0x60000000 ∧ (encode (.credWr a b)).extractLsb' 8 10 = a ∧
      (encode (.credWr a b)).extractLsb' 0 8 = b := by
  refine ⟨?_, ?_, ?_⟩
  · have hMask : (0xFFFC0000 : Word) = BitVec.allOnes 32 <<< 18 := by decide
    have hByte := operand_and_highMask (w := 32) (start := 0) (n := 18) b (by decide)
    rw [BitVec.shiftLeft_zero] at hByte
    rw [encode, hMask, BitVec.and_or_distrib_right, BitVec.and_or_distrib_right, hByte,
      operand_and_highMask a (by decide)]
    decide
  · simp only [encode, Laws.field_of_or, Laws.field_of_narrow b 8 (le_refl 8)]
    ext k hk
    simp [show 8 + k < 32 by omega, BitVec.getLsbD_eq_getElem hk]
  · simp only [encode, Laws.field_of_or]
    ext k hk
    simp [hk]
    omega

/-- The decoder reads the word of `CRED.WR a, b` as that operation (R48). -/
theorem decode_encode_credWr (a : BitVec 10) (b : Byte) : decode (encode (.credWr a b)) = .ok (.credWr a b) := by
  obtain ⟨-, hOp, -⟩ := Laws.Fields.credWr a b
  obtain ⟨hRow, ha, hb⟩ := encode_credWr_fields a b
  have hOther (mask fixed : Word) (hMask : opField mask = BitVec.allOnes 4) (hFixed : (6 : BitVec 4) ≠ opField fixed) :
      encode (.credWr a b) &&& mask ≠ fixed :=
    and_ne_of_opField_ne hMask (by rw [hOp]; exact hFixed)
  rw [decode, if_neg (hOther 0xFFFFFFFF 0x10000000 rfl (by decide)), if_neg (hOther 0xFFFFFF00 0x20000000 rfl (by decide)),
    if_neg (hOther 0xFFFFFFFF 0x30000000 rfl (by decide)), if_neg (hOther 0xFFFFFF00 0x40000000 rfl (by decide)),
    if_neg (hOther 0xFFFF0000 0x50000000 rfl (by decide)), if_pos hRow, ha, hb]

/-- What `CRED.WR` at an address that is not reserved does, whatever the host has still to send (R100). -/
theorem exec_credWr_withInput {s u : State} {a : BitVec 10} {b : Byte} (h : s.err = 0) (hw : Writes s (.credWr a b) u)
    (rest : List HostInput) : exec (.credWr a b) (s.withInput rest) = .next ((u.respond 0).withInput rest) := by
  rw [execCredWr_running (s := s.withInput rest) h]
  cases hw with
  | nothing hReads => cases hReads
  | storage _ _ hStorage =>
    rw [(credPlace_storage_iff a a.toNat).2 ⟨hStorage, rfl⟩]
    rfl
  | pwdlen => rfl
  | ssidlen => rfl
  | hidden => rfl

/-- A run whose first request is that of a `CRED.WR` at an address that is not reserved. -/
theorem run_credWr {s u : State} {a : BitVec 10} {b : Byte} (h : s.err = 0) (hw : Writes s (.credWr a b) u) (n : Nat)
    (rest : List HostInput) :
    Sys2Proof.core.run (n + 1) (s.withInput (.request (encode (.credWr a b)) :: rest)) =
      Sys2Proof.core.run n ((u.respond 0).withInput rest) :=
  run_request n (decode_encode_credWr a b) (exec_credWr_withInput h hw rest)

/-- The state with bytes written at consecutive addresses of `CRED` storage from `base` up, each write answered with a
success: what the requests of `writeBytes` leave (`run_loadRequests`). -/
def State.loadBytes (s : State) (base : Nat) (bytes : List Byte) : State :=
  { s with cred := Memory.writeList s.cred base bytes, rsps := s.rsps ++ List.replicate bytes.length ⟨0, 0⟩ }

/-- The requests that load bytes at consecutive addresses from `base` up (R53). -/
def loadRequests (base : Nat) (bytes : List Byte) : List HostInput :=
  (writeBytes base (bytes.map BitVec.toNat)).map fun i => .request (encode i)

theorem loadRequests_cons (base : Nat) (b : Byte) (bytes : List Byte) :
    loadRequests base (b :: bytes) =
      .request (encode (.credWr (BitVec.ofNat 10 base) b)) :: loadRequests (base + 1) bytes := by
  simp [loadRequests, writeBytes]

theorem State.loadBytes_cons (s : State) (base : Nat) (b : Byte) (bytes : List Byte) :
    s.loadBytes base (b :: bytes) = ((s.writeCred base b).respond 0).loadBytes (base + 1) bytes := by
  simp [State.loadBytes, State.writeCred, State.respond, Memory.writeList, List.replicate_succ]

/-- A byte of storage has an address of 10 bits (R32). -/
theorem toNat_of_isCredStorage {a : Nat} (h : isCredStorage a = true) : (BitVec.ofNat 10 a).toNat = a := by
  simp only [isCredStorage, Bool.or_eq_true, Bool.and_eq_true, decide_eq_true_eq] at h
  rw [BitVec.toNat_ofNat]
  omega

/-- Loading bytes at addresses of storage takes one request per byte (R53, R100). -/
theorem run_loadRequests {s : State} (h : s.err = 0) {base : Nat} {bytes : List Byte}
    (hBase : ∀ k < bytes.length, isCredStorage (base + k) = true) (n : Nat) (rest : List HostInput) :
    Sys2Proof.core.run (bytes.length + n) (s.withInput (loadRequests base bytes ++ rest)) =
      Sys2Proof.core.run n ((s.loadBytes base bytes).withInput rest) := by
  induction bytes generalizing s base with
  | nil => simp [loadRequests, writeBytes, State.loadBytes, Memory.writeList]
  | cons b bytes ih =>
    have hFirst : isCredStorage base = true := hBase 0 (by simp)
    have hRest (k : Nat) (hk : k < bytes.length) : isCredStorage (base + 1 + k) = true := by
      rw [Nat.add_right_comm]
      exact hBase (k + 1) (by simpa using hk)
    have hAddress := toNat_of_isCredStorage hFirst
    have hw := Writes.storage (s := s) (BitVec.ofNat 10 base) b (by rwa [hAddress])
    rw [hAddress] at hw
    rw [List.length_cons, Nat.add_right_comm, loadRequests_cons, List.cons_append, run_credWr h hw,
      ih (s := (s.writeCred base b).respond 0) h hRest, State.loadBytes_cons]

/-- The bytes loaded stand where they were written, in order. -/
theorem State.loadBytes_credByte_inside (s : State) (base : Nat) (bytes : List Byte) {k : Nat} (hk : k < bytes.length) :
    (s.loadBytes base bytes).credByte (base + k) = bytes[k] := by
  simp [State.credByte, State.loadBytes, Memory.read, Memory.find_writeList_inside s.cred base bytes k hk]

/-- Every other byte reads as before (R37). -/
theorem State.loadBytes_credByte_outside (s : State) (base : Nat) (bytes : List Byte) {a : Nat}
    (ha : a < base ∨ base + bytes.length ≤ a) : (s.loadBytes base bytes).credByte a = s.credByte a := by
  simp [State.credByte, State.loadBytes, Memory.read, Memory.find_writeList_outside s.cred base bytes ha]

theorem State.loadBytes_credBytes (s : State) (base : Nat) (bytes : List Byte) :
    (s.loadBytes base bytes).credBytes base bytes.length = bytes := by
  apply List.ext_getElem (by simp)
  intro k _ hk
  simp [State.credBytes, s.loadBytes_credByte_inside base bytes hk]

/-- Loading bytes and then writing a register (R53). -/
theorem run_loadRequests_then_credWr {s u : State} (h : s.err = 0) {base : Nat} {bytes : List Byte} {a : BitVec 10}
    {b : Byte} (hBase : ∀ k < bytes.length, isCredStorage (base + k) = true)
    (hw : Writes (s.loadBytes base bytes) (.credWr a b) u) :
    Sys2Proof.core.run (bytes.length + 1)
        (s.withInput (loadRequests base bytes ++ .request (encode (.credWr a b)) :: s.input)) =
      .next ((u.respond 0).withInput s.input) := by
  rw [run_loadRequests h hBase, run_credWr (s := s.loadBytes base bytes) h hw, run_zero]

/-- The requests of `CRED.PWD` and of `CRED.SSID` (R53). -/
theorem hostInputs_credPwd (bytes : List Byte) (rest : List HostInput) :
    hostInputs (.credPwd (bytes.map BitVec.toNat)) ++ rest =
      loadRequests 0x100 bytes ++ .request (encode (.credWr 0x010 (BitVec.ofNat 8 bytes.length))) :: rest := by
  simp [hostInputs, Source.expand, loadRequests]

theorem hostInputs_credSsid (bytes : List Byte) (rest : List HostInput) :
    hostInputs (.credSsid (bytes.map BitVec.toNat)) ++ rest =
      loadRequests 0x200 bytes ++ .request (encode (.credWr 0x011 (BitVec.ofNat 8 bytes.length))) :: rest := by
  simp [hostInputs, Source.expand, loadRequests]

/-- The password and the SSID have 256 bytes of storage each (R32). -/
theorem isCredStorage_of_le {a : Nat} (h : 0x100 ≤ a) (h' : a ≤ 0x2FF) : isCredStorage a = true := by
  simp [isCredStorage, h, h']

/-- `CRED.PWD` loads a password of at most 255 bytes. -/
theorem run_credPwd {s : State} (h : s.err = 0) {bytes : List Byte} (hBytes : bytes.length ≤ 255) :
    ∃ t, Sys2Proof.core.run (bytes.length + 1)
          (s.withInput (hostInputs (.credPwd (bytes.map BitVec.toNat)) ++ s.input)) = .next t ∧
      t = { s with pwdlen := BitVec.ofNat 8 bytes.length, cred := t.cred, rsps := t.rsps } ∧
      t.credential.pwd = bytes ∧ ∀ a, (a < 0x100 ∨ 0x100 + bytes.length ≤ a) → t.credByte a = s.credByte a := by
  have hLength : (BitVec.ofNat 8 bytes.length).toNat = bytes.length := Nat.mod_eq_of_lt (by omega)
  rw [hostInputs_credPwd]
  refine ⟨_, run_loadRequests_then_credWr h (fun k hk => isCredStorage_of_le (by omega) (by omega)) (.pwdlen _), rfl, ?_,
    fun a ha => s.loadBytes_credByte_outside 0x100 bytes ha⟩
  simp [State.credential, hLength, pwdBase, s.loadBytes_credBytes 0x100 bytes]

/-- `CRED.SSID` loads an SSID of at most 255 bytes. -/
theorem run_credSsid {s : State} (h : s.err = 0) {bytes : List Byte} (hBytes : bytes.length ≤ 255) :
    ∃ t, Sys2Proof.core.run (bytes.length + 1)
          (s.withInput (hostInputs (.credSsid (bytes.map BitVec.toNat)) ++ s.input)) = .next t ∧
      t = { s with ssidlen := BitVec.ofNat 8 bytes.length, cred := t.cred, rsps := t.rsps } ∧
      t.credential.ssid = bytes ∧ ∀ a, (a < 0x200 ∨ 0x200 + bytes.length ≤ a) → t.credByte a = s.credByte a := by
  have hLength : (BitVec.ofNat 8 bytes.length).toNat = bytes.length := Nat.mod_eq_of_lt (by omega)
  rw [hostInputs_credSsid]
  refine ⟨_, run_loadRequests_then_credWr h (fun k hk => isCredStorage_of_le (by omega) (by omega)) (.ssidlen _), rfl, ?_,
    fun a ha => s.loadBytes_credByte_outside 0x200 bytes ha⟩
  simp [State.credential, hLength, ssidBase, s.loadBytes_credBytes 0x200 bytes]

/-- Settles O58: the bytes are loaded one request at a time, then the length register. -/
theorem loadingPasswordAndSsid : Obligations.LoadingPasswordAndSsid := fun _ _ h hBytes =>
  ⟨run_credPwd h hBytes, run_credSsid h hBytes⟩

/-- Requests that load `n` bytes and nothing else leave the bytes in order, a success for each, and all else as it was. -/
theorem run_load {s : State} (h : s.err = 0) {base n : Nat} {bytes : List Byte} {src : Source} (hLength : bytes.length = n)
    (hSource : hostInputs src = loadRequests base bytes) (hBase : ∀ k < n, isCredStorage (base + k) = true) :
    ∃ t, Sys2Proof.core.run n (s.withInput (hostInputs src ++ s.input)) = .next t ∧
      t = { s with cred := t.cred, rsps := s.rsps ++ List.replicate n ⟨0, 0⟩ } ∧ t.credBytes base n = bytes ∧
      (∀ k < n, some (t.credByte (base + k)) = bytes[k]?) ∧
      ∀ a, (a < base ∨ base + n ≤ a) → t.credByte a = s.credByte a := by
  subst hLength
  rw [hSource]
  refine ⟨_, run_loadRequests h hBase 0 s.input, rfl, s.loadBytes_credBytes base bytes, fun k hk => ?_,
    fun a ha => s.loadBytes_credByte_outside base bytes ha⟩
  rw [List.getElem?_eq_getElem hk]
  exact congrArg some (s.loadBytes_credByte_inside base bytes hk)

/-- `CRED.HID` loads the flag. -/
theorem run_credHid {s : State} (h : s.err = 0) (flag : BitVec 1) :
    Sys2Proof.core.run 1 (s.withInput (hostInputs (.credHid flag.toNat) ++ s.input)) =
      .next { s with hidden := flag, rsps := s.rsps ++ [⟨0, 0⟩] } := by
  have hBit : ∀ flag : BitVec 1, (BitVec.ofNat 8 flag.toNat).extractLsb' 0 1 = flag := by decide
  have hw := Writes.hidden (s := s) (BitVec.ofNat 8 flag.toNat)
  rw [hBit] at hw
  exact run_credWr h hw 0 s.input

/-- Settles O59: six bytes, four bytes and one register write. -/
theorem loadingBssidIpAndHidden : Obligations.LoadingBssidIpAndHidden := by
  refine ⟨fun s bytes h hLength => ?_, fun s bytes h hLength => ?_, fun s flag h => ?_⟩
  · obtain ⟨t, hRun, hFrame, hBytes, hInside, hOutside⟩ :=
      run_load h (base := 0x000) (src := .credBssid (bytes.map BitVec.toNat)) hLength rfl (by decide)
    exact ⟨t, hRun, hFrame, hBytes, hInside, fun a ha => hOutside a (.inr ha)⟩
  · obtain ⟨t, hRun, hFrame, hBytes, hInside, hOutside⟩ :=
      run_load h (base := 0x008) (src := .credIp (bytes.map BitVec.toNat)) hLength rfl (by decide)
    exact ⟨t, hRun, hFrame, hBytes, hInside, fun a ha => hOutside a (ha.imp_right id)⟩
  · exact ⟨_, run_credHid h flag, rfl, by simp [State.credential]⟩

end Sys2Proof.Machine
end

section
/-! The proofs of the statements about the two stores: their canonical form, the bytes of the credential record and what
`DATUM.ENC` takes from them, and the frame of `CRED.WR` and of the operations that only read. -/

namespace Sys2Proof.Machine

/-! ### The canonical form of the stores -/

theorem State.storesWf_iff (s : State) :
    s.storesWf = true ↔ Memory.wf isCredStorage s.cred = true ∧ Memory.wf isCodeIndex s.code = true :=
  Bool.and_eq_true_iff

theorem State.storesWf_congr {s t : State} (hCred : t.cred = s.cred) (hCode : t.code = s.code) (h : s.storesWf = true) :
    t.storesWf = true := by
  rwa [State.storesWf, hCred, hCode]

theorem State.writeCred_storesWf {s : State} (h : s.storesWf = true) {a : Nat} (ha : isCredStorage a = true) (b : Byte) :
    (s.writeCred a b).storesWf = true := by
  obtain ⟨hCred, hCode⟩ := s.storesWf_iff.1 h
  exact (State.storesWf_iff _).2 ⟨Memory.wf_write hCred ha b, hCode⟩

/-- As many codes as the code store has entries can be stored (R34). -/
theorem State.storeCodes_storesWf {s : State} (h : s.storesWf = true) {codes : List Code} (hCodes : codes.length ≤ 384)
    (n : BitVec 9) : (s.storeCodes codes n).storesWf = true := by
  obtain ⟨hCred, hCode⟩ := s.storesWf_iff.1 h
  refine (State.storesWf_iff _).2 ⟨hCred, Memory.wf_writeList hCode 0 codes fun j hj => ?_⟩
  rw [isCodeIndex_eq_true_iff]
  omega

/-- `CRED.WR` writes at an address of storage, and `DATUM.ENC` at most three codes for each of 128 groups, which end at the
last index of the code store (R32, R34). -/
theorem Writes.storesWf {s u : State} {i : Instr} (hs : s.storesWf = true) (hw : Writes s i u) : u.storesWf = true := by
  cases hw with
  | storage a b hStorage => exact State.writeCred_storesWf hs hStorage b
  | datumEnc _ hGroups =>
    rw [← Credential.values_length s.credential_ip_length] at hGroups
    exact State.storeCodes_storesWf hs (by rw [pairCodes_flatFrom_length]; omega) _
  | _ => exact State.storesWf_congr rfl rfl hs

/-- Every answer keeps both stores in canonical form: an error and the halted answer write neither. -/
theorem Answered.storesWf {s t : State} {o : Option Instr} (hs : s.storesWf = true) (h : Answered s o t) :
    t.storesWf = true := by
  cases h with
  | halted => exact State.storesWf_congr rfl rfl hs
  | raised => exact State.storesWf_congr rfl rfl hs
  | completed _ hw =>
    have hu := hw.storesWf hs
    exact State.storesWf_congr rfl rfl hu

/-- Settles O13: reset lists nothing, and every answer keeps both stores in canonical form. -/
theorem stepKeepsStoresCanonical : Obligations.StepKeepsStoresCanonical := fun _ _ hs ht =>
  step_keeps (P := fun s => s.storesWf = true) (fun _ _ h => h) (fun _ => rfl) (fun _ _ _ => Answered.storesWf) hs ht

/-! ### The bytes of the credential record -/

theorem State.credBytes_eq_map (s : State) (base n : Nat) : s.credBytes base n = (List.range' base n).map s.credByte := by
  rw [List.range'_eq_map_range, List.map_map]
  rfl

theorem State.credBytes_congr {s t : State} {base n : Nat} (h : ∀ a ∈ List.range' base n, t.credByte a = s.credByte a) :
    t.credBytes base n = s.credBytes base n := by
  rw [State.credBytes_eq_map, State.credBytes_eq_map, List.map_congr_left h]

theorem State.credBytes_getElem? (s : State) (base : Nat) {n k : Nat} (hk : k < n) :
    (s.credBytes base n)[k]? = some (s.credByte (base + k)) := by
  simp [State.credBytes, hk]

/-- R32, R37: the addresses `DATUM.ENC` reads, as intervals of the map. -/
theorem State.mem_credentialAddresses_iff (s : State) (a : Nat) :
    a ∈ s.credentialAddresses ↔
      a ≤ 0x005 ∨ (0x008 ≤ a ∧ a ≤ 0x00B) ∨ (0x100 ≤ a ∧ a < 0x100 + s.pwdlen.toNat) ∨
        (0x200 ≤ a ∧ a < 0x200 + s.ssidlen.toNat) := by
  simp only [State.credentialAddresses, bssidBase, Config.bssidLen, ipBase, Config.ipLen, pwdBase, ssidBase,
    List.mem_append, List.mem_range'_1]
  omega

/-- Settles O60: each field of the record is a run of consecutive bytes of the store. -/
theorem credentialReadsTheAddressedBytes : Obligations.CredentialReadsTheAddressedBytes := fun s =>
  ⟨rfl, rfl, s.credential_pwd_length, fun _ hk => s.credBytes_getElem? pwdBase hk, s.credential_ssid_length,
    fun _ hk => s.credBytes_getElem? ssidBase hk, beq_iff_eq, s.mem_credentialAddresses_iff⟩

/-! ### What `DATUM.ENC` takes from the store -/

/-- The state with its credential store, and the draw its unwritten bytes come from, replaced: all that decides what a
`CRED` byte reads as. -/
def State.withCredStore (s : State) (cred : List Host.Cell) (draw : Nat) : State := { s with cred := cred, draw := draw }

/-- Where every byte `DATUM.ENC` reads is the same in another store, so is the credential record (R37, R90). -/
theorem State.credential_withCredStore {s : State} {cred : List Host.Cell} {draw : Nat}
    (h : ∀ a ∈ s.credentialAddresses, (s.withCredStore cred draw).credByte a = s.credByte a) :
    (s.withCredStore cred draw).credential = s.credential := by
  simp only [State.credentialAddresses, List.forall_mem_append] at h
  obtain ⟨⟨⟨hBssid, hIp⟩, hPwd⟩, hSsid⟩ := h
  exact (Credential.mk.injEq ..).mpr ⟨State.credBytes_congr hSsid, State.credBytes_congr hPwd,
    State.credBytes_congr hBssid, State.credBytes_congr hIp, rfl⟩

/-- `DATUM.ENC` reads the credential store through the credential record alone (R102). -/
theorem exec_datumEnc_withCredStore {s t : State} {cred : List Host.Cell} {draw : Nat}
    (hCredential : (s.withCredStore cred draw).credential = s.credential) (ht : exec .datumEnc s = .next t) :
    exec .datumEnc (s.withCredStore cred draw) = .next (t.withCredStore cred draw) := by
  by_cases h : s.err = 0
  · rw [execDatumEnc_running h] at ht
    obtain rfl := Host.Outcome.next.inj ht
    rw [execDatumEnc_running (s := s.withCredStore cred draw) h, hCredential]
    split_ifs
    · rfl
    · rfl
    · cases datumCodes s.credential <;> rfl
  · rw [exec_halted h] at ht
    obtain rfl := Host.Outcome.next.inj ht
    exact exec_halted (s := s.withCredStore cred draw) h _

/-- `DATUM.ENC` leaves the credential store and the draw as they were (R102). -/
theorem datumEnc_keeps_credStore {s t : State} (ht : exec .datumEnc s = .next t) : t.cred = s.cred ∧ t.draw = s.draw := by
  cases exec_answered ht with
  | halted => exact ⟨rfl, rfl⟩
  | raised => exact ⟨rfl, rfl⟩
  | completed _ hw => cases hw <;> exact ⟨rfl, rfl⟩

/-- Settles O41: a byte written at an address `DATUM.ENC` does not read leaves the credential record as it was. -/
theorem datumEncIgnoresUndeclaredBytes : Obligations.DatumEncIgnoresUndeclaredBytes := by
  intro s t a b ha ht
  have hCredential : (s.withCredStore (Memory.write s.cred a b) s.draw).credential = s.credential :=
    State.credential_withCredStore fun n hn => s.writeCred_credByte_other b (ne_of_mem_of_not_mem hn ha)
  refine (exec_datumEnc_withCredStore hCredential ht).trans ?_
  rw [← (datumEnc_keeps_credStore ht).2]
  rfl

/-- A written element reads the same whatever the store held at reset (R42). -/
theorem Memory.read_eq_of_written {w : Nat} {m : Memory w} {a : Nat} (h : (Memory.find m a).isSome = true)
    (atReset atReset' : Nat → BitVec w) : Memory.read atReset m a = Memory.read atReset' m a := by
  obtain ⟨e, he⟩ := Option.isSome_iff_exists.1 h
  rw [Memory.read, Memory.read, he, Option.getD_some, Option.getD_some]

/-- Settles O42: where every byte of the credential record is written, the record does not depend on the draw. -/
theorem writtenCredentialDecidesDatumEnc : Obligations.WrittenCredentialDecidesDatumEnc := by
  intro s t d hWritten ht
  have hCredential : (s.withCredStore s.cred d).credential = s.credential :=
    State.credential_withCredStore fun a ha => Memory.read_eq_of_written (List.all_eq_true.1 hWritten a ha) _ _
  refine (exec_datumEnc_withCredStore hCredential ht).trans ?_
  rw [← (datumEnc_keeps_credStore ht).1]
  rfl

/-! ### The frame of `CRED.WR` and of the operations that only read -/

/-- Settles O45: at an address of storage `CRED.WR` is one write of the store and a success. -/
theorem credWrChangesOneByte : Obligations.CredWrChangesOneByte := by
  intro s a b h hStorage
  have hRun : exec (.credWr a b) s = .next ((s.writeCred a.toNat b).respond 0) := by
    rw [execCredWr_running h, (credPlace_storage_iff a a.toNat).2 ⟨hStorage, rfl⟩]
  exact ⟨_, hRun, s.writeCred_credByte_same a.toNat b, fun _ hn => s.writeCred_credByte_other b hn, fun _ => rfl, rfl⟩

/-- An operation that only reads writes nothing before it responds. -/
theorem Writes.eq_of_readsOnly {s u : State} {i : Instr} (hi : readsOnly i = true) (hw : Writes s i u) : u = s := by
  cases hw with
  | nothing => rfl
  | _ => cases hi

/-- Settles O54: the three answers change `ERR` and the responses alone where the operation writes nothing. -/
theorem readingOperationsFrame : Obligations.ReadingOperationsFrame := by
  intro i s t hi ht
  cases exec_answered ht with
  | halted => exact ⟨rfl, fun _ => rfl, fun _ => rfl⟩
  | raised => exact ⟨rfl, fun _ => rfl, fun _ => rfl⟩
  | completed _ hw =>
    obtain rfl := hw.eq_of_readsOnly hi
    exact ⟨rfl, fun _ => rfl, fun _ => rfl⟩

/-! ### A request that selects an operation -/

/-- Settles O6: the oldest input is taken, then decoded. -/
theorem stepRunsDecodedOperation : Obligations.StepRunsDecodedOperation := by
  intro s req rest i hi hd
  have hNext : nextInput s = some (.request req, s.withInput rest) := by rw [nextInput, hi]
  have hDecode : decodeRequest req = some i := by rw [decodeRequest, hd]; rfl
  rw [step, hNext]
  simp only [hDecode]

end Sys2Proof.Machine
end

section
/-! The proofs of the statements about the request word and the assembler: each row of R48 is selected by its `op`, the
zero field and the bits no operand uses, so decoder, encoder and table agree; what a step does with a request; and the
requests of `CRC.BUF`. -/

namespace Sys2Proof.Machine

/-! ### The rows of R48 by the fields of the word -/

/-- A word is its three fields (R45). -/
theorem word_eq_iff_fields {a b : Word} :
    a = b ↔ opField a = opField b ∧ rzField a = rzField b ∧ a.extractLsb' 0 24 = b.extractLsb' 0 24 := by
  constructor
  · rintro rfl
    exact ⟨rfl, rfl, rfl⟩
  · rintro ⟨hOp, hRz, hImm⟩
    have hOp := congrArg BitVec.toNat hOp
    have hRz := congrArg BitVec.toNat hRz
    have hImm := congrArg BitVec.toNat hImm
    simp only [opField, rzField, BitVec.extractLsb'_toNat, Nat.shiftRight_eq_div_pow] at hOp hRz hImm
    apply BitVec.eq_of_toNat_eq
    omega

/-- The word holds no bit of the cases (b) and (c) of R50: `rz` is zero, and so is every bit of `imm` that its `op` shows
as a fixed 0. -/
def fixedBitsZero (req : Word) : Bool :=
  rzField req == 0 && req.extractLsb' 0 24 &&& fixedZeroBits (opField req) == 0

theorem fixedBitsZero_iff (req : Word) :
    fixedBitsZero req = true ↔ rzField req = 0 ∧ req.extractLsb' 0 24 &&& fixedZeroBits (opField req) = 0 := by
  simp [fixedBitsZero]

/-- The form of a row's mask and match (R48): the mask takes in `op`, `rz` and the fixed bits of `imm`, and the match has
zeros beside `op`. -/
def isRow (mask fixed : Word) : Bool :=
  opField mask == BitVec.allOnes 4 && rzField mask == BitVec.allOnes 4 &&
    mask.extractLsb' 0 24 == fixedZeroBits (opField fixed) && rzField fixed == 0 && fixed.extractLsb' 0 24 == 0

/-- The match of a row has no stray bit. -/
theorem fixedBitsZero_of_isRow {mask fixed : Word} (h : isRow mask fixed = true) : fixedBitsZero fixed = true := by
  simp only [isRow, Bool.and_eq_true, beq_iff_eq] at h
  obtain ⟨⟨-, hFixedRz⟩, hFixedImm⟩ := h
  rw [fixedBitsZero_iff, hFixedImm]
  exact ⟨hFixedRz, BitVec.zero_and⟩

/-- A word is in a row exactly where `op` is the row's and its fixed bits are zero (R48, R50). -/
theorem and_eq_iff_of_isRow {req mask fixed : Word} (h : isRow mask fixed = true) :
    req &&& mask = fixed ↔ opField req = opField fixed ∧ fixedBitsZero req = true := by
  simp only [isRow, Bool.and_eq_true, beq_iff_eq] at h
  obtain ⟨⟨⟨⟨hOp, hRz⟩, hImm⟩, hFixedRz⟩, hFixedImm⟩ := h
  have hAndOp : opField (req &&& mask) = opField req := by
    rw [opField, BitVec.extractLsb'_and, ← opField, ← opField, hOp, BitVec.and_allOnes]
  have hAndRz : rzField (req &&& mask) = rzField req := by
    rw [rzField, BitVec.extractLsb'_and, ← rzField, ← rzField, hRz, BitVec.and_allOnes]
  rw [word_eq_iff_fields, hAndOp, hAndRz, BitVec.extractLsb'_and, hImm, hFixedRz, hFixedImm]
  refine and_congr_right fun h => ?_
  rw [fixedBitsZero_iff, h]

/-- The operation an `op` selects, with its operands from their fields of the word (R47, R49). -/
def operationOf (op : BitVec 4) (req : Word) : Option Instr :=
  if op = 0x1 then some .crcRst
  else if op = 0x2 then some (.crcUpd (req.extractLsb' 0 8))
  else if op = 0x3 then some .crcGet
  else if op = 0x4 then some (.crcLut (req.extractLsb' 0 8))
  else if op = 0x5 then some (.dcEnc (req.extractLsb' 0 8) (req.extractLsb' 8 8))
  else if op = 0x6 then some (.credWr (req.extractLsb' 8 10) (req.extractLsb' 0 8))
  else if op = 0x7 then some (.credRd (req.extractLsb' 8 10))
  else if op = 0x8 then some .datumEnc
  else if op = 0x9 then some (.codeRd (req.extractLsb' 0 9))
  else if op = 0xA then some .codeCnt
  else if op = 0xB then some (.matGen (req.extractLsb' 0 16))
  else none

/-- The decoder reads the operation of `op` where the fixed bits are zero, and refuses every other word (R48, R50). -/
theorem decode_toOption (req : Word) :
    (decode req).toOption = if fixedBitsZero req = true then operationOf (opField req) req else none := by
  have hRow (mask fixed : Word) (h : isRow mask fixed = true) := and_eq_iff_of_isRow (req := req) h
  simp only [decode, hRow 0xFFFFFFFF 0x10000000 rfl, hRow 0xFFFFFF00 0x20000000 rfl, hRow 0xFFFFFFFF 0x30000000 rfl,
    hRow 0xFFFFFF00 0x40000000 rfl, hRow 0xFFFF0000 0x50000000 rfl, hRow 0xFFFC0000 0x60000000 rfl,
    hRow 0xFFFC00FF 0x70000000 rfl, hRow 0xFFFFFFFF 0x80000000 rfl, hRow 0xFFFFFE00 0x90000000 rfl,
    hRow 0xFFFFFFFF 0xA0000000 rfl, hRow 0xFFFF0000 0xB0000000 rfl]
  cases fixedBitsZero req with
  | false => simp [Except.toOption]
  | true =>
    simp only [and_true, if_true, operationOf, apply_ite Except.toOption]
    rfl

/-- Which operation an `op` selects does not depend on the operands. -/
theorem operationOf_mnemonic (op : BitVec 4) (req : Word) :
    (operationOf op req).map mnemonicOf = (operationOf op 0).map mnemonicOf := by
  simp only [operationOf, apply_ite (Option.map mnemonicOf), Option.map_some, mnemonicOf]

/-- The cases (a) of R50 are the `op` values that select no operation (R47). -/
theorem operationOf_eq_none_iff (op : BitVec 4) (req : Word) : operationOf op req = none ↔ op = 0x0 ∨ 0xC ≤ op := by
  have hTable : ∀ op : BitVec 4, operationOf op 0 = none ↔ op = 0x0 ∨ 0xC ≤ op := by decide
  rw [← Option.map_eq_none_iff (f := mnemonicOf), operationOf_mnemonic, Option.map_eq_none_iff, hTable]

/-- Of the rows of the table those of an `op` are the one of the operation it selects, or none (R48). -/
theorem operationRows_filter_op (op : BitVec 4) (req : Word) :
    (operationRows.filter fun r => op == opField r.2.2).map (·.1) = ((operationOf op req).map mnemonicOf).toList := by
  have hTable : ∀ op : BitVec 4, (operationRows.filter fun r => op == opField r.2.2).map (·.1) =
      ((operationOf op 0).map mnemonicOf).toList := by decide
  rw [operationOf_mnemonic, hTable]

/-- A word selects the row of the operation the decoder reads, and no other (R48, R54). -/
theorem selectedRows_eq (req : Word) : selectedRows req = ((decode req).toOption.map mnemonicOf).toList := by
  have hRows : ∀ r ∈ operationRows, isRow r.2.1 r.2.2 = true := by decide
  have hFilter : selectedRows req =
      (operationRows.filter fun r => opField req == opField r.2.2 && fixedBitsZero req).map (·.1) := by
    refine congrArg (List.map _) (List.filter_congr fun r hr => ?_)
    rw [Bool.eq_iff_iff, beq_iff_eq, and_eq_iff_of_isRow (hRows r hr), Bool.and_eq_true, beq_iff_eq]
  rw [hFilter, decode_toOption]
  cases fixedBitsZero req with
  | false => simp
  | true => simpa using operationRows_filter_op (opField req) req

/-- Settles O3: the rows a word selects are those of its `op` where the fixed bits are zero. -/
theorem wordSelectsOneRowOrNone : Obligations.WordSelectsOneRowOrNone := by
  intro req
  rw [selectedRows_eq]
  cases decode req <;> rfl

theorem decode_error_iff_toOption (req : Word) : (∃ e, decode req = .error e) ↔ (decode req).toOption = none := by
  cases decode req <;> simp [Except.toOption]

/-- The decoder refuses a word exactly where no row selects it (R48, R50). -/
theorem decode_error_iff_selectedRows (req : Word) : (∃ e, decode req = .error e) ↔ selectedRows req = [] := by
  rw [decode_error_iff_toOption, selectedRows_eq, Option.toList_eq_nil_iff, Option.map_eq_none_iff]

/-- The decoder refuses a word exactly in the three cases of R50. -/
theorem decode_error_iff_fields (req : Word) :
    (∃ e, decode req = .error e) ↔ (opField req = 0x0 ∨ 0xC ≤ opField req) ∨ rzField req ≠ 0 ∨
      req.extractLsb' 0 24 &&& fixedZeroBits (opField req) ≠ 0 := by
  rw [decode_error_iff_toOption, decode_toOption, ← operationOf_eq_none_iff (opField req) req, ← not_and_or,
    ← fixedBitsZero_iff, ite_eq_right_iff]
  tauto

/-! ### The word of each operation -/

/-- An operand placed at bit `start` has no bit of a mask that leaves its field free. -/
theorem operand_and_mask {w m start : Nat} {mask : BitVec w} (a : BitVec m)
    (h : ∀ k < m, mask.getLsbD (k + start) = false) : a.setWidth w <<< start &&& mask = 0 := by
  ext k hk
  by_cases hLow : k < start
  · simp [hLow]
  by_cases hField : k - start < m
  · have := h (k - start) hField
    rw [Nat.sub_add_cancel (Nat.not_lt.1 hLow), BitVec.getLsbD_eq_getElem hk] at this
    simp [this]
  · simp [BitVec.getLsbD_of_ge a (k - start) (Nat.not_lt.1 hField)]

theorem lowOperand_and_mask {w m : Nat} {mask : BitVec w} (a : BitVec m) (h : ∀ k < m, mask.getLsbD k = false) :
    a.setWidth w &&& mask = 0 := by
  simpa using operand_and_mask (start := 0) a h

/-- An operand placed at bit `start` is read back from there (R49). -/
theorem field_of_operand {w m : Nat} (a : BitVec m) (start : Nat) (h : start + m ≤ w) :
    (a.setWidth w <<< start).extractLsb' start m = a := by
  ext k hk
  simp [show start + k < w by omega, BitVec.getLsbD_eq_getElem hk]

theorem field_of_lowOperand {w m : Nat} (a : BitVec m) (h : m ≤ w) : (a.setWidth w).extractLsb' 0 m = a := by
  simpa using field_of_operand a 0 (by omega)

/-- An operand above a field does not reach it. -/
theorem field_below_operand {w m n : Nat} (a : BitVec m) (start : Nat) (h : n ≤ start) :
    (a.setWidth w <<< start).extractLsb' 0 n = 0 := by
  ext k hk
  simp [show k < start by omega]

/-- The decoder reads a row's match with operands in the bits its mask leaves free as the operation of its `op` (R48,
R54). -/
theorem decode_match_or {mask fixed operands : Word} {i : Instr} (hTable : isRow mask fixed = true)
    (hFree : operands &&& mask = 0) (hi : operationOf (opField fixed) (fixed ||| operands) = some i) :
    decode (fixed ||| operands) = .ok i := by
  have hMatch : fixed &&& mask = fixed := (and_eq_iff_of_isRow hTable).2 ⟨rfl, fixedBitsZero_of_isRow hTable⟩
  have hRow : (fixed ||| operands) &&& mask = fixed := by
    rw [BitVec.and_or_distrib_right, hMatch, hFree]
    exact BitVec.or_zero
  obtain ⟨hOp, hZero⟩ := (and_eq_iff_of_isRow hTable).1 hRow
  have hDecode : (decode (fixed ||| operands)).toOption = some i := by rw [decode_toOption, if_pos hZero, hOp, hi]
  cases hd : decode (fixed ||| operands) with
  | ok j => rw [hd] at hDecode; exact congrArg _ (Option.some.inj hDecode)
  | error e => rw [hd] at hDecode; cases hDecode

/-- The operations with one operand, at bit 0 (R48). -/
theorem decode_match_or_lowOperand {mask fixed : Word} {m : Nat} {f : BitVec m → Instr} (a : BitVec m)
    (hTable : isRow mask fixed = true) (hFree : ∀ k < m, mask.getLsbD k = false)
    (hField : fixed.extractLsb' 0 m = 0 ∧ m ≤ 32)
    (hf : ∀ req, operationOf (opField fixed) req = some (f (req.extractLsb' 0 m))) :
    decode (fixed ||| a.setWidth 32) = .ok (f a) := by
  refine decode_match_or hTable (lowOperand_and_mask a hFree) ?_
  rw [hf, Laws.field_of_or, hField.1, field_of_lowOperand a hField.2]
  exact congrArg (fun a => some (f a)) BitVec.zero_or

theorem decode_encode_dcEnc (v x : Byte) : decode (encode (.dcEnc v x)) = .ok (.dcEnc v x) := by
  rw [encode, BitVec.or_assoc]
  refine decode_match_or (mask := 0xFFFF0000) rfl ?_ (congrArg₂ (fun v x => some (Instr.dcEnc v x)) ?_ ?_)
  · rw [BitVec.and_or_distrib_right, operand_and_mask x (by decide), lowOperand_and_mask v (by decide)]
    rfl
  · simp [Laws.field_of_or, field_of_lowOperand, field_below_operand]
  · simp [Laws.field_of_or, field_of_operand, Laws.field_of_narrow]

theorem decode_encode_credRd (a : BitVec 10) : decode (encode (.credRd a)) = .ok (.credRd a) := by
  refine decode_match_or (mask := 0xFFFC00FF) rfl (operand_and_mask a (by decide))
    (congrArg (fun a => some (Instr.credRd a)) ?_)
  simp [Laws.field_of_or, field_of_operand]

/-- Settles O1: the word of an operation is in its row, and each operand is read back from its field. -/
theorem decodeEncodeIsIdentity : Obligations.DecodeEncodeIsIdentity := by
  intro i
  cases i with
  | crcRst => decide
  | crcUpd b => exact decode_match_or_lowOperand (mask := 0xFFFFFF00) b rfl (by decide) (by decide) fun _ => rfl
  | crcGet => decide
  | crcLut n => exact decode_match_or_lowOperand (mask := 0xFFFFFF00) n rfl (by decide) (by decide) fun _ => rfl
  | dcEnc v x => exact decode_encode_dcEnc v x
  | credWr a b => exact decode_encode_credWr a b
  | credRd a => exact decode_encode_credRd a
  | datumEnc => decide
  | codeRd k => exact decode_match_or_lowOperand (mask := 0xFFFFFE00) k rfl (by decide) (by decide) fun _ => rfl
  | codeCnt => decide
  | matGen c => exact decode_match_or_lowOperand (mask := 0xFFFF0000) c rfl (by decide) (by decide) fun _ => rfl

/-- A field of a word, put back in its place, is the word without its other bits (R49). -/
theorem field_in_place {w : Nat} (req : BitVec w) (start n : Nat) :
    (req.extractLsb' start n).setWidth w <<< start = req &&& (BitVec.allOnes n).setWidth w <<< start := by
  ext k hk
  by_cases hLow : k < start
  · simp [hLow]
  by_cases hField : k - start < n
  · simp [hLow, hField, Nat.add_sub_cancel' (Nat.not_lt.1 hLow), BitVec.getLsbD_eq_getElem hk]
  · simp [hField]

theorem lowField_in_place {w : Nat} (req : BitVec w) (n : Nat) :
    (req.extractLsb' 0 n).setWidth w = req &&& (BitVec.allOnes n).setWidth w := by
  simpa using field_in_place req 0 n

/-- An operation is the one its own number selects (R47). -/
theorem eq_opNumber_of_operationOf {op : BitVec 4} {req : Word} {i : Instr} (hi : operationOf op req = some i) :
    op = Laws.opNumber i := by
  have hTable : ∀ op : BitVec 4, ∀ n ∈ (operationOf op 0).map Laws.opNumber, op = n := by decide
  have hNumber : (operationOf op req).map Laws.opNumber = (operationOf op 0).map Laws.opNumber := by
    simp only [operationOf, apply_ite (Option.map Laws.opNumber), Option.map_some, Laws.opNumber]
  exact hTable op _ (by rw [← hNumber, hi]; rfl)

/-- The operation an `op` selects, its operands read from a word without stray bits, has that word. -/
theorem encode_operationOf {req : Word} {i : Instr} (hZero : fixedBitsZero req = true)
    (hi : operationOf (opField req) req = some i) : encode i = req := by
  have hWord (free fixed : Word) (hTable : isRow (~~~free) fixed = true) (hOp : opField req = opField fixed) :
      fixed ||| (req &&& free) = req := by
    simpa using or_of_and_eq ((and_eq_iff_of_isRow hTable).2 ⟨hOp, hZero⟩)
  have hOp := eq_opNumber_of_operationOf hi
  rw [hOp] at hi
  cases i with
  | crcRst => simpa [encode] using hWord 0 0x10000000 rfl hOp
  | crcUpd b =>
    cases hi
    rw [encode, lowField_in_place]
    exact hWord _ 0x20000000 rfl hOp
  | crcGet => simpa [encode] using hWord 0 0x30000000 rfl hOp
  | crcLut n =>
    cases hi
    rw [encode, lowField_in_place]
    exact hWord _ 0x40000000 rfl hOp
  | dcEnc v x =>
    cases hi
    rw [encode, lowField_in_place, field_in_place, BitVec.or_assoc, ← BitVec.and_or_distrib_left]
    exact hWord _ 0x50000000 rfl hOp
  | credWr a b =>
    cases hi
    rw [encode, lowField_in_place, field_in_place, BitVec.or_assoc, ← BitVec.and_or_distrib_left]
    exact hWord _ 0x60000000 rfl hOp
  | credRd a =>
    cases hi
    rw [encode, field_in_place]
    exact hWord _ 0x70000000 rfl hOp
  | datumEnc => simpa [encode] using hWord 0 0x80000000 rfl hOp
  | codeRd k =>
    cases hi
    rw [encode, lowField_in_place]
    exact hWord _ 0x90000000 rfl hOp
  | codeCnt => simpa [encode] using hWord 0 0xA0000000 rfl hOp
  | matGen c =>
    cases hi
    rw [encode, lowField_in_place]
    exact hWord _ 0xB0000000 rfl hOp

/-- Settles O2: the row of the operation fixes every bit of the word that no operand holds. -/
theorem encodeDecodeIsIdentity : Obligations.EncodeDecodeIsIdentity := by
  intro req i h
  have hDecode := decode_toOption req
  rw [h] at hDecode
  split_ifs at hDecode with hZero
  · exact encode_operationOf hZero hDecode.symm
  · cases hDecode

/-- Settles O5, by evaluation of the decoder on each word. -/
theorem sampleWordsDecode : Obligations.SampleWordsDecode := by
  unfold Obligations.SampleWordsDecode
  decide

/-- Settles O57: the operands fit their fields, and each is read back from its number. -/
theorem assembleOfLineIsOperation : Obligations.AssembleOfLineIsOperation := by
  intro i
  have hExpand : i.toSource.expand = [i] := by cases i <;> simp [Instr.toSource, Source.expand]
  have hFits : i.toSource.wellFormed = true := Laws.instr_wellFormed i
  rw [assemble, if_pos hFits, hExpand]

/-! ### A step on a request -/

/-- An illegal request is taken and then answered (R50, R54). -/
theorem step_of_illegal {s : State} {req : Word} {rest : List HostInput} {e : Illegal}
    (hi : s.input = .request req :: rest) (hd : decode req = .error e) :
    step s = .next (answerIllegal (s.withInput rest)) := by
  have hNext : nextInput s = some (.request req, s.withInput rest) := by rw [nextInput, hi]
  have hDecode : decodeRequest req = none := by rw [decodeRequest, hd]; rfl
  rw [step, hNext]
  simp only [hDecode]

/-- In a running block an illegal request raises `IllegalRequest` and nothing else happens (R50, R166). -/
theorem step_of_illegal_running {s : State} {req : Word} {rest : List HostInput} {e : Illegal} (h : s.err = 0)
    (hi : s.input = .request req :: rest) (hd : decode req = .error e) :
    step s = .next { s with err := 4, rsps := s.rsps ++ [⟨4, 0⟩], input := rest } := by
  rw [step_of_illegal hi hd, answerIllegal, answer_running (s := s.withInput rest) h]
  rfl

/-- A halted block takes a request and answers it with `ERR`, whatever the word (R54, R167). -/
theorem step_of_halted {s : State} {req : Word} {rest : List HostInput} (h : s.err ≠ 0)
    (hi : s.input = .request req :: rest) : step s = .next (s.withInput rest).respondHalted := by
  cases hd : decode req with
  | ok i => rw [stepRunsDecodedOperation s req rest i hi hd, exec_halted (s := s.withInput rest) h]
  | error e => rw [step_of_illegal hi hd, answerIllegal, answer_halted (s := s.withInput rest) h]

/-- Settles O4: the cases of R50 are those in which no row selects the word, and a running block raises the error. -/
theorem illegalWordRaisesIllegalRequest : Obligations.IllegalWordRaisesIllegalRequest :=
  ⟨decode_error_iff_fields, decode_error_iff_selectedRows, ⟨_, rfl⟩, ⟨_, rfl⟩,
    fun _ _ _ _ h hi hd => step_of_illegal_running h hi hd⟩

/-- Settles O7: the rows that select the word say what the decoder reads. -/
theorem decodeProcedureOrder : Obligations.DecodeProcedureOrder := by
  intro s req rest hi
  refine ⟨fun h => step_of_halted h hi, fun h hRows => ?_, fun h hRows => ?_⟩
  · obtain ⟨e, hd⟩ := (decode_error_iff_selectedRows req).2 hRows
    exact step_of_illegal_running h hi hd
  · cases hd : decode req with
    | ok i =>
      exact ⟨i, encodeDecodeIsIdentity req i hd, by rw [wordSelectsOneRowOrNone req, hd],
        stepRunsDecodedOperation s req rest i hi hd⟩
    | error e => exact absurd ((decode_error_iff_selectedRows req).1 ⟨e, hd⟩) hRows

/-- A step on a request always answers it (R185). -/
theorem step_request_answered {s : State} {req : Word} {rest : List HostInput} (hi : s.input = .request req :: rest) :
    ∃ t o, step s = .next t ∧ Answered (s.withInput rest) o t := by
  cases hd : decode req with
  | error e => exact ⟨_, none, step_of_illegal hi hd, answerIllegal_answered _⟩
  | ok i =>
    have hStep := stepRunsDecodedOperation s req rest i hi hd
    have hExec : ∃ t, exec i (s.withInput rest) = .next t := by
      rcases exec_cases i (s.withInput rest) with ⟨_, e⟩ | ⟨_, t, e⟩
      · exact ⟨_, e⟩
      · exact ⟨t, e⟩
    obtain ⟨t, ht⟩ := hExec
    exact ⟨t, some i, hStep.trans ht, exec_answered ht⟩

/-- An answer takes no input and is one response, which carries `ERR` and no data beside an error (R46). -/
theorem Answered.response {s t : State} {o : Option Instr} (h : Answered s o t) :
    t.input = s.input ∧ ∃ r : Response, t.rsps = s.rsps ++ [r] ∧ r.err = t.err ∧ (r.err ≠ 0 → r.data = 0) := by
  cases h with
  | halted => exact ⟨rfl, _, rfl, rfl, fun _ => rfl⟩
  | raised => exact ⟨rfl, _, rfl, rfl, fun _ => rfl⟩
  | @completed i u hErr hw data =>
    exact ⟨hw.input_eq, ⟨0, data⟩, by rw [State.respond_rsps, hw.rsps_eq], (hw.err_eq.trans hErr).symm,
      fun h => absurd rfl h⟩

/-- A datagram leaves only with a success (R19, R46). -/
theorem Answered.out_or_success {s t : State} {o : Option Instr} (h : Answered s o t) :
    t.out = s.out ∨ ∃ d, t.out = s.out ++ [d] ∧ t.err = 0 := by
  cases h with
  | halted => exact .inl rfl
  | raised => exact .inl rfl
  | completed hErr hw =>
    have hSuccess := hw.err_eq.trans hErr
    cases hw with
    | matGen c => exact .inr ⟨_, rfl, hSuccess⟩
    | _ => exact .inl rfl

/-- Settles O19: whatever the answer, it is one response, and a datagram beside it only with a success. -/
theorem oneResponsePerRequest : Obligations.OneResponsePerRequest := by
  intro s req rest hi
  obtain ⟨t, o, hStep, hAnswer⟩ := step_request_answered hi
  obtain ⟨hInput, r, hRsps, hErr, hData⟩ := hAnswer.response
  exact ⟨t, r, hStep, hInput, hRsps, hErr, hData, by rw [hErr]; exact hAnswer.out_or_success⟩

/-! ### The requests of `CRC.BUF` -/

/-- Settles O23: the response is `RUN`. -/
theorem crcGetRespondsRun : Obligations.CrcGetRespondsRun := ⟨rfl, fun _ => execCrcGet_running⟩

/-- The state with bytes fed to the CRC, each answered with the new `RUN`: what one `CRC.UPD` per byte leaves
(`run_crcUpds`). -/
def State.feed (s : State) (bytes : List Byte) : State :=
  { s with
    run := bytes.foldl crcStep s.run
    rsps := s.rsps ++
      (List.range bytes.length).map fun k => ⟨0, ((bytes.take (k + 1)).foldl crcStep s.run).setWidth 48⟩ }

theorem State.feed_cons (s : State) (b : Byte) (bytes : List Byte) :
    s.feed (b :: bytes) =
      ((s.setRun (crcStep s.run b)).respond ((crcStep s.run b).setWidth 48)).feed bytes := by
  simp [State.feed, State.setRun, State.respond, List.range_succ_eq_map, Function.comp_def]

/-- Feeding bytes takes one request per byte (R53, R67). -/
theorem run_crcUpds {s : State} (h : s.err = 0) (bytes : List Byte) (n : Nat) (rest : List HostInput) :
    Sys2Proof.core.run (bytes.length + n)
        (s.withInput ((bytes.map fun b => .request (encode (.crcUpd b))) ++ rest)) =
      Sys2Proof.core.run n ((s.feed bytes).withInput rest) := by
  induction bytes generalizing s with
  | nil => simp [State.feed]
  | cons b bytes ih =>
    have hFirst := run_request (bytes.length + n) (decodeEncodeIsIdentity (.crcUpd b))
      (execCrcUpd_running (s := s.withInput ((bytes.map fun b => .request (encode (.crcUpd b))) ++ rest)) h b)
    rw [List.length_cons, Nat.add_right_comm, State.feed_cons]
    exact hFirst.trans (ih (s := (s.setRun (crcStep s.run b)).respond ((crcStep s.run b).setWidth 48)) h)

theorem hostInputs_crcBuf (bytes : List Byte) (rest : List HostInput) :
    hostInputs (.crcBuf (bytes.map BitVec.toNat)) ++ rest =
      .request (encode .crcRst) ::
        ((bytes.map fun b => .request (encode (.crcUpd b))) ++ .request (encode .crcGet) :: rest) := by
  simp [hostInputs, Source.expand]

/-- Settles O25: `CRC.RST` starts from the initial value, each byte moves `RUN` on, and `CRC.GET` responds it. -/
theorem crcBufferSequenceRespondsCrc8 : Obligations.CrcBufferSequenceRespondsCrc8 := by
  intro s bytes h
  rw [hostInputs_crcBuf]
  have hRst := run_request (bytes.length + 1) (decodeEncodeIsIdentity .crcRst)
    (execCrcRst_running (s := s.withInput
      ((bytes.map fun b => .request (encode (.crcUpd b))) ++ .request (encode .crcGet) :: s.input)) h)
  have hUpds := run_crcUpds (s := (s.setRun Config.crcInitial).respond 0) h bytes 1
    (.request (encode .crcGet) :: s.input)
  have hGet := run_request (s := ((s.setRun Config.crcInitial).respond 0).feed bytes) (rest := s.input) 0
    (decodeEncodeIsIdentity .crcGet) (execCrcGet_running h)
  refine (hRst.trans (hUpds.trans hGet)).trans ?_
  rw [run_zero]
  simp [State.feed, State.setRun, State.respond, State.withInput, crc8]

end Sys2Proof.Machine
end

section
/-! The proofs of the statements about the CRC engine: the table's steps are linear over XOR and send no byte but 0 to 0,
`Crc8` of a list with a byte appended is one more step of R64, and what `CRC.RST`, `CRC.UPD`, `CRC.LUT` and `MAT.GEN`
write. -/

namespace Sys2Proof.Machine

/-! ### The steps of the table build -/

/-- A step is linear over XOR: the shift is, and the polynomial enters where one low bit alone is 1 and cancels where both
are (R60). -/
theorem crcTableStep_xor (a b : Code) : crcTableStep (a ^^^ b) = crcTableStep a ^^^ crcTableStep b := by
  simp only [crcTableStep, BitVec.getLsbD_xor, BitVec.ushiftRight_xor_distrib]
  cases a.getLsbD 0 <;> cases b.getLsbD 0
  case false.false => rfl
  case false.true => exact BitVec.xor_assoc ..
  case true.false => simp; ac_rfl
  case true.true => simp only [bne_self_eq_false, Bool.false_eq_true, if_true, if_false]; ac_nf; simp

/-- A step keeps a value below 256 (R61). -/
theorem crcTableStep_lt {r : Code} (h : r.toNat < 256) : (crcTableStep r).toNat < 256 := by
  have hShift : (r >>> 1).toNat < 256 := by simp; omega
  unfold crcTableStep
  split_ifs
  · exact Nat.xor_lt_two_pow (n := 8) hShift (by decide)
  · exact hShift

/-- A step sends no other value below 256 to 0: the polynomial would have to cancel a byte shifted right, whose bit 7 is
clear. -/
theorem eq_zero_of_crcTableStep_eq_zero {r : Code} (h : r.toNat < 256) (hStep : crcTableStep r = 0) : r = 0 := by
  unfold crcTableStep at hStep
  split_ifs at hStep with hLow
  · have hShift := congrArg BitVec.toNat (BitVec.xor_eq_zero_iff.1 hStep)
    simp [Config.crcPolynom] at hShift
    omega
  · have hShift := congrArg BitVec.toNat hStep
    simp [BitVec.getLsbD, Nat.testBit_zero] at hShift hLow
    bv_omega

/-! ### The table -/

theorem repeat_crcTableStep_xor (n : Nat) (a b : Code) :
    Nat.repeat crcTableStep n (a ^^^ b) = Nat.repeat crcTableStep n a ^^^ Nat.repeat crcTableStep n b := by
  induction n with
  | zero => rfl
  | succ n ih => simp only [Nat.repeat, ih, crcTableStep_xor]

theorem repeat_crcTableStep_lt (n : Nat) {r : Code} (h : r.toNat < 256) : (Nat.repeat crcTableStep n r).toNat < 256 := by
  induction n with
  | zero => exact h
  | succ n ih => exact crcTableStep_lt ih

theorem eq_zero_of_repeat_crcTableStep_eq_zero (n : Nat) {r : Code} (h : r.toNat < 256)
    (hRepeat : Nat.repeat crcTableStep n r = 0) : r = 0 := by
  induction n with
  | zero => exact hRepeat
  | succ n ih => exact ih (eq_zero_of_crcTableStep_eq_zero (repeat_crcTableStep_lt n h) hRepeat)

theorem setWidth_toNat_lt (i : Byte) : (i.setWidth 16).toNat < 256 := by bv_omega

/-- The table is linear over XOR (R62). -/
theorem crcTable_xor (a b : Byte) : crcTable (a ^^^ b) = crcTable a ^^^ crcTable b := by
  simp only [crcTable, BitVec.setWidth_xor, repeat_crcTableStep_xor]

/-- An entry is below 256 (R61). -/
theorem crcTable_lt (i : Byte) : (crcTable i).toNat < 256 := repeat_crcTableStep_lt 8 (setWidth_toNat_lt i)

theorem crcTable_eq_setWidth (i : Byte) : crcTable i = ((crcTable i).setWidth 8).setWidth 16 := by
  have hLt := crcTable_lt i
  bv_omega

/-- Entries at different indices differ (R62): by linearity the entry at `a ^^^ b` is 0, and only index 0 has that
entry. -/
theorem crcTable_injective : Function.Injective crcTable := by
  intro a b h
  have hEntry : crcTable (a ^^^ b) = 0 := by rw [crcTable_xor, h, BitVec.xor_self]; rfl
  have hIndex := eq_zero_of_repeat_crcTableStep_eq_zero 8 (setWidth_toNat_lt _) hEntry
  exact BitVec.xor_eq_zero_iff.1 (by bv_omega)

theorem crcTable_lowByte_surjective : Function.Surjective fun i : Byte => (crcTable i).setWidth 8 := by
  refine Finite.injective_iff_surjective.1 fun a b h => crcTable_injective ?_
  rw [crcTable_eq_setWidth a, crcTable_eq_setWidth b]
  exact congrArg (BitVec.setWidth 16) h

/-- Settles O26: an injective map of the bytes to themselves is onto. -/
theorem crcTableIsLinearPermutation : Obligations.CrcTableIsLinearPermutation := by
  refine ⟨crcTable_xor, fun _ _ h => crcTable_injective h, fun v => ?_⟩
  obtain ⟨a, rfl⟩ := crcTable_lowByte_surjective v
  exact ⟨a, crcTable_eq_setWidth a⟩

/-- Settles O27: the build of R60 evaluated at every index. -/
theorem crcTableContents : Obligations.CrcTableContents := by
  unfold Obligations.CrcTableContents
  decide +kernel

/-! ### The function `Crc8` -/

/-- Appending a byte is one more step (R65 (e)). -/
@[simp] theorem crc8_append_singleton (bytes : List Byte) (b : Byte) :
    crc8 (bytes ++ [b]) = crcStep (crc8 bytes) b := by
  simp [crc8]

/-- A byte fed to a running value equal to it leaves 0 (R67). -/
@[simp] theorem crcStep_self (c : Byte) : crcStep c c = 0 := by rw [crcStep, BitVec.xor_self]; rfl

theorem crc8_replicate_zero (n : Nat) : crc8 (List.replicate n 0) = 0 := by
  induction n with
  | zero => rfl
  | succ n ih => rw [List.replicate_succ', crc8_append_singleton, ih, crcStep_self]

/-- Settles O29: each property is that of the last step. -/
theorem crc8Properties : Obligations.Crc8Properties := by
  refine ⟨rfl, crc8_replicate_zero, fun bytes => ?_, crc8_append_singleton, fun s bytes b h hRun => ?_⟩
  · rw [crc8_append_singleton, crcStep_self]
  · exact ⟨_, execCrcUpd_running h b, by rw [crc8_append_singleton, ← hRun]; rfl⟩

/-- One byte of the running value of `W` bits (R63): the step of `crcWide`. -/
def crcWideStep (W run : Nat) (b : Byte) : Nat :=
  ((crcTable (BitVec.ofNat 8 ((run ^^^ b.toNat) % 256))).toNat ^^^ run <<< 8) % 2 ^ W

theorem crcWide_append_singleton (W : Nat) (bytes : List Byte) (b : Byte) :
    crcWide W (bytes ++ [b]) = crcWideStep W (crcWide W bytes) b := by
  simp [crcWide, crcWideStep]

/-- The low byte of a step: the index takes the low byte alone, and the shifted value has none (R64). -/
theorem ofNat_crcWideStep {W : Nat} (hW : 8 ≤ W) (run : Nat) (b : Byte) :
    BitVec.ofNat 8 (crcWideStep W run b) = crcStep (BitVec.ofNat 8 run) b := by
  have hMod (n m : Nat) (hm : 256 ∣ m) : BitVec.ofNat 8 (n % m) = BitVec.ofNat 8 n :=
    BitVec.eq_of_toNat_eq (by simpa using Nat.mod_mod_of_dvd n hm)
  have hIndex : BitVec.ofNat 8 ((run ^^^ b.toNat) % 256) = BitVec.ofNat 8 run ^^^ b := by
    rw [hMod _ _ dvd_rfl, BitVec.ofNat_xor, BitVec.ofNat_toNat, BitVec.setWidth_eq]
  have hShift : BitVec.ofNat 8 (run <<< 8) = 0 :=
    BitVec.eq_of_toNat_eq (by simp [Nat.shiftLeft_eq])
  rw [crcWideStep, hMod _ _ (pow_dvd_pow 2 hW), BitVec.ofNat_xor, hIndex, hShift, BitVec.ofNat_toNat]
  exact BitVec.xor_zero

/-- Settles O28, by induction on the list from its end. -/
theorem crc8IndependentOfRunningWidth : Obligations.Crc8IndependentOfRunningWidth := by
  intro W bytes hW
  induction bytes using List.reverseRecOn with
  | nil => rfl
  | append_singleton bytes b ih =>
    rw [crcWide_append_singleton, ofNat_crcWideStep hW, ih, crc8_append_singleton]

/-! ### The operations -/

/-- The next states of an operation that always completes: the halted answer and the completed one. -/
theorem exec_next_cases {i : Instr} {s t u : State} (hRunning : s.err = 0 → exec i s = .next u)
    (ht : exec i s = .next t) : t = s.respondHalted ∨ t = u := by
  by_cases h : s.err = 0
  · exact .inr (Host.Outcome.next.inj (ht.symm.trans (hRunning h)))
  · exact .inl (Host.Outcome.next.inj (ht.symm.trans (exec_halted h i)))

/-- Settles O55: the halted answer adds a response, and the operation writes `RUN` or `OUT` before it responds. -/
theorem crcAndMatGenFrame : Obligations.CrcAndMatGenFrame := by
  refine fun s t => ⟨fun ht => ?_, fun b ht => ?_, fun c ht => ?_⟩
  · rcases exec_next_cases execCrcRst_running ht with rfl | rfl <;> rfl
  · rcases exec_next_cases (execCrcUpd_running · b) ht with rfl | rfl <;> rfl
  · rcases exec_next_cases (execMatGen_running · c) ht with rfl | rfl <;> rfl

/-- Settles O21. -/
theorem crcRstStartsACrc : Obligations.CrcRstStartsACrc := ⟨rfl, fun _ => execCrcRst_running⟩

/-- Settles O22. -/
theorem crcUpdFeedsOneByte : Obligations.CrcUpdFeedsOneByte :=
  ⟨fun _ => rfl, fun _ b h => execCrcUpd_running h b, rfl, rfl, rfl⟩

/-- Settles O24: an entry is below 256, so its upper byte is 0. -/
theorem crcLutRespondsTableEntry : Obligations.CrcLutRespondsTableEntry := by
  refine ⟨fun _ => rfl, fun _ i h => execCrcLut_running h i, fun i => ?_, rfl, rfl⟩
  refine BitVec.eq_of_toNat_eq ?_
  simp [BitVec.extractLsb'_toNat, Nat.shiftRight_eq_div_pow, Nat.div_eq_of_lt (crcTable_lt i)]

end Sys2Proof.Machine
end

section
/-! The proofs of the statements about the data-code encoder: a byte is its two nibbles, so R80's layout is read back
nibble by nibble, and bit 7 of an index byte says whether it is above `INDEX_MAX`. -/

namespace Sys2Proof.Machine

/-! ### Nibbles -/

theorem joinNibbles_eq_append (high low : Nibble) : joinNibbles high low = high ++ low := by
  rw [BitVec.append_def, BitVec.shiftLeftZeroExtend_eq, BitVec.setWidth'_eq, joinNibbles]

@[simp] theorem highNibble_joinNibbles (high low : Nibble) : highNibble (joinNibbles high low) = high := by
  rw [joinNibbles_eq_append]
  exact BitVec.extractLsb'_append_eq_left

@[simp] theorem lowNibble_joinNibbles (high low : Nibble) : lowNibble (joinNibbles high low) = low := by
  rw [joinNibbles_eq_append]
  exact BitVec.extractLsb'_append_eq_right

@[simp] theorem joinNibbles_highNibble_lowNibble (b : Byte) : joinNibbles (highNibble b) (lowNibble b) = b := by
  rw [joinNibbles_eq_append]
  exact BitVec.extractLsb'_append_extractLsb'

theorem highNibble_setWidth (b : Byte) : (highNibble b).setWidth 8 = b >>> 4 := by
  refine BitVec.eq_of_toNat_eq ?_
  simp [highNibble, BitVec.extractLsb'_toNat, Nat.shiftRight_eq_div_pow]
  omega

theorem lowNibble_setWidth (b : Byte) : (lowNibble b).setWidth 8 = b &&& 0x0F := by
  have hMod : b.toNat &&& 0x0F = b.toNat % 16 := Nat.and_two_pow_sub_one_eq_mod b.toNat 4
  refine BitVec.eq_of_toNat_eq ?_
  simp [lowNibble, hMod]
  omega

/-- Two high nibbles joined, in the arithmetic of the claims. -/
theorem joinNibbles_highNibbles (b c : Byte) :
    joinNibbles (highNibble b) (highNibble c) = (b >>> 4) <<< 4 ||| c >>> 4 := by
  rw [joinNibbles, highNibble_setWidth, highNibble_setWidth]

/-- Two low nibbles joined, in the arithmetic of the claims. -/
theorem joinNibbles_lowNibbles (b c : Byte) :
    joinNibbles (lowNibble b) (lowNibble c) = (b &&& 0x0F) <<< 4 ||| (c &&& 0x0F) := by
  rw [joinNibbles, lowNibble_setWidth, lowNibble_setWidth]

/-! ### The group -/

theorem dataCode_eq_ok_iff (v : Byte) (x : Nat) (g : Group) :
    dataCode v x = .ok g ↔ x ≤ 127 ∧ groupLayout v (BitVec.ofNat 8 x) = g := by
  rw [dataCode_eq]
  split_ifs with h <;> simp [h]

/-- The value is read back from the low nibbles of `g[1]` and `g[5]` (R81). -/
theorem groupLayout_value (v x : Byte) :
    joinNibbles (lowNibble (groupLayout v x).g1) (lowNibble (groupLayout v x).g5) = v := by
  simp [groupLayout]

/-- The CRC is read back from the high nibbles of `g[1]` and `g[5]` (R81). -/
theorem groupLayout_crc (v x : Byte) :
    joinNibbles (highNibble (groupLayout v x).g1) (highNibble (groupLayout v x).g5) = crc8 [v, x] := by
  simp [groupLayout]

theorem groupLayout_index (v x : Byte) : (groupLayout v x).g3 = x := rfl

/-- Each byte of a group in the response data (R55, R82). -/
theorem Group.data_fields (g : Group) :
    g.data.extractLsb' 40 8 = g.g0 ∧ g.data.extractLsb' 32 8 = g.g1 ∧ g.data.extractLsb' 24 8 = g.g2 ∧
    g.data.extractLsb' 16 8 = g.g3 ∧ g.data.extractLsb' 8 8 = g.g4 ∧ g.data.extractLsb' 0 8 = g.g5 := by
  have hAbove {n : Nat} (a : BitVec n) (b : Byte) (start : Nat) :
      (a ++ b).extractLsb' (start + 8) 8 = a.extractLsb' start 8 := BitVec.extractLsb'_append_eq_of_le (by omega)
  have hLast {n : Nat} (a : BitVec n) (b : Byte) : (a ++ b).extractLsb' 0 8 = b := BitVec.extractLsb'_append_eq_right
  simp only [Group.data, hAbove, hLast, BitVec.extractLsb'_eq_self, and_self]

/-- Bit 7 of an index byte says that the index is above `INDEX_MAX` (R82). -/
theorem getLsbD_seven_iff (x : Byte) : x.getLsbD 7 = true ↔ 127 < x.toNat := by
  rw [← BitVec.msb_eq_getLsbD_last x, BitVec.msb_eq_decide, decide_eq_true_iff, Nat.lt_iff_add_one_le]

/-- The index byte's bit 7 is bit 15 of the request (R48, R82). -/
theorem encode_dcEnc_getLsbD (v x : Byte) : (encode (.dcEnc v x)).getLsbD 15 = x.getLsbD 7 := by
  simp [encode]

/-- Settles O31: the joined nibbles of a group are the value and the CRC it was made of. -/
theorem dataCodeIsInjective : Obligations.DataCodeIsInjective := by
  refine ⟨fun v x => ⟨rfl, rfl, rfl, ?_, rfl, ?_⟩, fun v w x y g hg hg' => ?_, fun v x g hg => ?_⟩
  · rw [← joinNibbles_lowNibbles, groupLayout_value]
  · rw [← joinNibbles_highNibbles, groupLayout_crc]
  · obtain ⟨hx, rfl⟩ := (dataCode_eq_ok_iff v x g).1 hg
    obtain ⟨hy, hEq⟩ := (dataCode_eq_ok_iff w y _).1 hg'
    have hIndex : BitVec.ofNat 8 y = BitVec.ofNat 8 x := congrArg Group.g3 hEq
    refine ⟨?_, by bv_omega⟩
    rw [← groupLayout_value v (BitVec.ofNat 8 x), ← hEq, groupLayout_value]
  · obtain ⟨hx, rfl⟩ := (dataCode_eq_ok_iff v x g).1 hg
    rw [groupLayout_index, ← Bool.not_eq_true, getLsbD_seven_iff, BitVec.toNat_ofNat]
    omega

/-- Settles O32: each code is the group's pair with the bias, and a byte is at most 255. -/
theorem groupCodesOfOneGroup : Obligations.GroupCodesOfOneGroup := by
  intro v x hx
  have hCodes : (groupCodes v x).map BitVec.toNat =
      [40 + (groupLayout v x).g1.toNat, 296 + x.toNat, 40 + (groupLayout v x).g5.toNat] := by
    rw [groupCodes_toNat, Nat.add_comm 40, Nat.add_comm 296, Nat.add_comm 40]
  have := (groupLayout v x).g1.isLt
  have := (groupLayout v x).g5.isLt
  refine ⟨hCodes, ?_⟩
  simp [hCodes]
  omega

/-- Settles O30: the response is the group's six bytes where the range test passes, the fault entry elsewhere. -/
theorem dcEncRespondsDataCode : Obligations.DcEncRespondsDataCode := by
  refine ⟨fun _ _ => rfl, fun s v x h hx => ?_, fun s v x h hx => ?_, fun v x => ?_, ?_⟩
  · obtain ⟨h0, h1, h2, h3, h4, h5⟩ := (groupLayout v x).data_fields
    refine ⟨(groupLayout v x).data, ?_, h0, h1.trans ?_, h2, h3, h4, h5.trans ?_⟩
    · rw [execDcEnc_running h, if_pos hx]; rfl
    · exact joinNibbles_highNibbles _ _
    · exact joinNibbles_lowNibbles _ _
  · rw [execDcEnc_running h, if_neg (Nat.not_le.2 hx)]; rfl
  · rw [encode_dcEnc_getLsbD, getLsbD_seven_iff]
  · decide +kernel

end Sys2Proof.Machine
end

section
/-! The proofs of the statements about the datum encoder: `DatumCodes` on lengths in and out of bounds, the one state a
successful `DATUM.ENC` leaves, the map of R32 as a chain of tests on the address, and the entries `CODE.RD` responds. -/

namespace Sys2Proof.Machine

/-! ### The value sequence and `DatumCodes` -/

theorem Credential.totalLen_eq (c : Credential) : c.totalLen = 9 + c.pwd.length + c.ssid.length := rfl

theorem Credential.groupCount_eq (c : Credential) :
    c.groupCount = 9 + c.pwd.length + if c.hidden then c.ssid.length else 0 := rfl

/-- The codes of a sequence cut in two are those of the parts, the second part's indices going on from the first's. -/
theorem pairCodes_flatFrom_append (i : Nat) (vs ws : List Byte) :
    pairCodes (flatFrom i (vs ++ ws)) = pairCodes (flatFrom i vs) ++ pairCodes (flatFrom (i + vs.length) ws) := by
  induction vs generalizing i with
  | nil => rfl
  | cons v vs ih =>
    rw [List.cons_append, pairCodes_flatFrom_cons, pairCodes_flatFrom_cons, ih, List.append_assoc, List.length_cons,
      Nat.add_right_comm, Nat.add_assoc]

/-- The three codes from `3i` up are those of the value at position `i` (R96, R97). -/
theorem pairCodes_flatFrom_group {vs : List Byte} {i : Nat} {v : Byte} (hv : vs[i]? = some v) :
    ((pairCodes (flatFrom 0 vs)).drop (3 * i)).take 3 = groupCodes v (BitVec.ofNat 8 i) := by
  refine List.ext_getElem? fun m => ?_
  by_cases hm : m < 3
  · rw [List.getElem?_take_of_lt hm, List.getElem?_drop, pairCodes_flatFrom_getElem? 0 hv hm, Nat.zero_add]
  · rw [List.getElem?_take_eq_none (Nat.not_lt.1 hm)]
    exact (List.getElem?_eq_none (Nat.not_lt.1 hm)).symm

/-- The codes of the value sequence: what `DatumCodes` gives where it succeeds (`datumCodes_eq_codes`). Irreducible, so that
states that hold them are compared without evaluating a code. -/
@[irreducible] def Credential.codes (c : Credential) : List Code := pairCodes (flatFrom 0 c.values)

theorem Credential.codes_length {c : Credential} (hip : c.ip.length = 4) : c.codes.length = 3 * c.groupCount := by
  rw [Credential.codes, pairCodes_flatFrom_length, Credential.values_length hip]

theorem datumCodes_eq_codes {c : Credential} (hip : c.ip.length = 4) (hTotal : c.totalLen ≤ 255)
    (hGroups : c.groupCount ≤ 128) : datumCodes c = .ok c.codes := by
  rw [Credential.codes, datumCodes_of_bounds hip hTotal hGroups]

/-- Settles O33: within the bounds the codes are the groups' codes in turn. -/
theorem datumCodesAreTheGroupCodes : Obligations.DatumCodesAreTheGroupCodes := by
  intro c hip hTotal hGroups
  refine ⟨Credential.values_length hip, c.codes, datumCodes_eq_codes hip hTotal hGroups, Credential.codes_length hip,
    fun i v hv => ?_⟩
  rw [Credential.codes, pairCodes_flatFrom_group hv]

/-- The test of `totalLen` comes first (R99). -/
theorem datumCodes_of_long {c : Credential} (h : 255 < c.totalLen) : datumCodes c = .error .valueOutOfRange := by
  rw [datumCodes, if_pos h]

/-- A value at index 128 is reported where `totalLen` is a byte (R99). -/
theorem datumCodes_of_many {c : Credential} (hip : c.ip.length = 4) (hTotal : c.totalLen ≤ 255)
    (hGroups : 128 < c.groupCount) : datumCodes c = .error .indexOutOfRange := by
  have hFlat : flattenGroups 0 c.values = .error .indexOutOfRange :=
    flattenGroups_error 0 c.values (by omega) (by rw [Credential.values_length hip]; omega)
  simp [datumCodes, hFlat, Nat.not_lt.2 hTotal]

/-- Settles O34: each side of the two tests. -/
theorem datumCodesFailsExactlyOnLengths : Obligations.DatumCodesFailsExactlyOnLengths := fun c hip =>
  ⟨datumCodes_of_long, datumCodes_of_many hip, fun hTotal hGroups => ⟨c.codes, datumCodes_eq_codes hip hTotal hGroups⟩⟩

theorem foldl_xor_eq_xorAll (b : Byte) (bytes : List Byte) : bytes.foldl (· ^^^ ·) b = b ^^^ xorAll bytes := by
  induction bytes generalizing b with
  | nil => exact BitVec.xor_zero.symm
  | cons c bytes ih => rw [List.foldl_cons, ih, xorAll, BitVec.xor_assoc]

/-- The checksum as one XOR over the header's four values and all bytes of the address, the password and the SSID (R95). -/
theorem Credential.totalXor_eq_foldl (c : Credential) :
    c.totalXor = c.totalLenByte ^^^ c.pwdLenByte ^^^ c.ssidCrc ^^^ c.bssidCrc ^^^
      (c.ip ++ c.pwd ++ c.ssid).foldl (· ^^^ ·) 0 := by
  simp only [Credential.totalXor, List.foldl_append, foldl_xor_eq_xorAll, BitVec.ofNat_eq_ofNat, BitVec.zero_xor,
    BitVec.xor_assoc]

/-- After the header come the address, the password and, where hidden, the SSID (R93). -/
theorem Credential.values_header_add (c : Credential) (k : Nat) :
    c.values[5 + k]? = (c.ip ++ (c.pwd ++ if c.hidden then c.ssid else []))[k]? := by
  rw [Credential.values, List.append_assoc, List.append_assoc, Nat.add_comm]
  rfl

/-- Settles O35: the header's five values stand by definition, the rest by their offsets in the sequence. -/
theorem datumValueSequence : Obligations.DatumValueSequence := by
  intro c hip
  have hAfterIp (k : Nat) : c.values[9 + k]? = (c.pwd ++ if c.hidden then c.ssid else [])[k]? := by
    rw [show 9 + k = 5 + (4 + k) by omega, c.values_header_add, List.getElem?_append_right (by omega), hip,
      Nat.add_sub_cancel_left]
  refine ⟨rfl, rfl, rfl, rfl, congrArg some c.totalXor_eq_foldl, fun k hk => ?_, fun k hk => ?_, fun k => ?_⟩
  · rw [c.values_header_add, List.getElem?_append_left (by omega)]
  · rw [hAfterIp, List.getElem?_append_left hk]
  · rw [Nat.add_assoc, hAfterIp, List.getElem?_append_right (Nat.le_add_right _ _), Nat.add_sub_cancel_left]
    split_ifs <;> rfl

/-! ### `DATUM.ENC` within the bounds -/

theorem State.credential_totalLen (s : State) : s.credential.totalLen = s.declaredTotal := by
  rw [Credential.totalLen_eq, s.credential_pwd_length, s.credential_ssid_length, State.declaredTotal]

theorem State.credential_groupCount (s : State) : s.credential.groupCount = s.declaredGroups := by
  simp [Credential.groupCount_eq, State.declaredGroups, State.credential]

@[simp] theorem State.credential_codes_length (s : State) : s.credential.codes.length = 3 * s.declaredGroups := by
  rw [Credential.codes_length s.credential_ip_length, s.credential_groupCount]

/-- The data a successful `DATUM.ENC` responds (`exec_datumEnc_of_bounds`). -/
def State.datumResponse (s : State) : RspData :=
  datumData (BitVec.ofNat 8 s.declaredTotal) s.credential.totalXor (BitVec.ofNat 9 (3 * s.declaredGroups))

/-- The state a successful `DATUM.ENC` leaves (`exec_datumEnc_of_bounds`). -/
def State.encoded (s : State) : State :=
  (s.storeCodes s.credential.codes (BitVec.ofNat 9 (3 * s.declaredGroups))).respond s.datumResponse

section

variable {s : State}

theorem State.datumCodes_credential (hTotal : s.declaredTotal ≤ 255) (hGroups : s.declaredGroups ≤ 128) :
    datumCodes s.credential = .ok s.credential.codes :=
  datumCodes_eq_codes s.credential_ip_length (by rwa [s.credential_totalLen]) (by rwa [s.credential_groupCount])

/-- `DATUM.ENC` on a credential whose lengths are in bounds (R102). -/
theorem exec_datumEnc_of_bounds (h : s.err = 0) (hTotal : s.declaredTotal ≤ 255) (hGroups : s.declaredGroups ≤ 128) :
    exec .datumEnc s = .next s.encoded := by
  have hGroups' : ¬ Config.groupsMax < s.declaredGroups := Nat.not_lt.2 hGroups
  rw [execDatumEnc_running h, State.datumCodes_credential hTotal hGroups, Credential.totalLenByte, s.credential_totalLen,
    s.credential_groupCount, if_neg (Nat.not_lt.2 hTotal), if_neg hGroups']
  rfl

/-- `NCODES` does not wrap: 384 is below `2^9`. -/
theorem State.encoded_ncodes_toNat (hGroups : s.declaredGroups ≤ 128) :
    s.encoded.ncodes.toNat = 3 * s.declaredGroups := by
  rw [State.encoded, State.respond_ncodes, State.storeCodes_ncodes, BitVec.toNat_ofNat]
  omega

theorem State.encoded_codeEntry_inside {k : Nat} (hk : k < s.credential.codes.length) :
    s.encoded.codeEntry k = s.credential.codes[k] := by
  rw [State.encoded, State.respond_codeEntry, State.storeCodes_codeEntry_inside]

theorem State.encoded_codeEntry_outside {k : Nat} (hk : s.credential.codes.length ≤ k) :
    s.encoded.codeEntry k = s.codeEntry k := by
  rw [State.encoded, State.respond_codeEntry, State.storeCodes_codeEntry_outside s s.credential.codes _ hk]

end

/-- Each field of the response of `DATUM.ENC` (R55, R102). -/
theorem datumData_fields (totalLen totalXor : Byte) (ncodes : BitVec 9) :
    (datumData totalLen totalXor ncodes).extractLsb' 0 9 = ncodes ∧
    (datumData totalLen totalXor ncodes).extractLsb' 9 7 = 0 ∧
    (datumData totalLen totalXor ncodes).extractLsb' 16 8 = totalXor ∧
    (datumData totalLen totalXor ncodes).extractLsb' 24 8 = totalLen ∧
    (datumData totalLen totalXor ncodes).extractLsb' 32 16 = 0 ∧
    (datumData totalLen totalXor ncodes).extractLsb' 16 32 = 0#16 ++ totalLen ++ totalXor := by
  have hAbove {m n k : Nat} (a : BitVec m) (b : BitVec n) (start : Nat) :
      (a ++ b).extractLsb' (start + n) k = a.extractLsb' start k := by
    rw [BitVec.extractLsb'_append_eq_of_le (by omega), Nat.add_sub_cancel]
  have hLast {m n : Nat} (a : BitVec m) (b : BitVec n) : (a ++ b).extractLsb' 0 n = b :=
    BitVec.extractLsb'_append_eq_right
  have hPayload {k : Nat} (start : Nat) : (datumData totalLen totalXor ncodes).extractLsb' (start + 16) k =
      (0#16 ++ totalLen ++ totalXor).extractLsb' start k :=
    (hAbove _ ncodes (start + 7)).trans (hAbove _ 0#7 start)
  refine ⟨hLast _ ncodes, (hAbove _ ncodes 0).trans (hLast _ 0#7), (hPayload 0).trans (hLast _ totalXor),
    (hPayload 8).trans ((hAbove _ totalXor 0).trans (hLast _ totalLen)),
    (hPayload 16).trans ((hAbove _ totalXor 8).trans ((hAbove 0#16 totalLen 0).trans BitVec.extractLsb'_eq_self)),
    (hPayload 0).trans BitVec.extractLsb'_eq_self⟩

/-- Settles O36: the state left is that of `exec_datumEnc_of_bounds`, its response read field by field. -/
theorem datumEncEncodesCredential : Obligations.DatumEncEncodesCredential := by
  refine ⟨rfl, fun s h hTotal hGroups => ?_⟩
  obtain ⟨hNcodes, hGap, hXor, hLen, hTop, -⟩ :=
    datumData_fields (BitVec.ofNat 8 s.declaredTotal) s.credential.totalXor (BitVec.ofNat 9 (3 * s.declaredGroups))
  exact ⟨s.credential.codes, s.datumResponse, State.datumCodes_credential hTotal hGroups,
    exec_datumEnc_of_bounds h hTotal hGroups, s.credential_codes_length, hNcodes, hGap, hXor, hLen, hTop⟩

/-- `CODE.RD` of an entry that is valid (R103). -/
theorem exec_codeRd_of_lt {s : State} {k : BitVec 9} (h : s.err = 0) (hk : k < s.ncodes) (hIndex : k.toNat < 384) :
    exec (.codeRd k) s = .next (s.respond ((s.codeEntry k.toNat).setWidth 48)) := by
  have hValid : ¬ (s.ncodes ≤ k ∨ isCodeIndex k.toNat = false) := by
    rw [isCodeIndex_eq_false_iff, not_or, BitVec.not_le, Nat.not_le]
    exact ⟨hk, hIndex⟩
  rw [execCodeRd_running h, if_neg hValid]

/-- `CODE.RD` of an entry that is not valid or does not exist (R103). -/
theorem exec_codeRd_of_ge {s : State} {k : BitVec 9} (h : s.err = 0) (hk : s.ncodes ≤ k ∨ 384 ≤ k.toNat) :
    exec (.codeRd k) s = .next (s.raise .addressOutOfRange) := by
  rw [execCodeRd_running h, if_pos (hk.imp_right (isCodeIndex_eq_false_iff _).2)]

/-- Settles O38: the codes stand from index 0 up, and `NCODES` is their number. -/
theorem datumEncOverwritesCodeFromZero : Obligations.DatumEncOverwritesCodeFromZero := by
  intro s h hTotal hGroups
  have hNcodes : s.encoded.ncodes.toNat = s.credential.codes.length := by
    rw [State.encoded_ncodes_toNat hGroups, s.credential_codes_length]
  exact ⟨s.credential.codes, s.encoded, State.datumCodes_credential hTotal hGroups,
    exec_datumEnc_of_bounds h hTotal hGroups, hNcodes, fun _ hk => State.encoded_codeEntry_inside hk,
    fun _ hk => State.encoded_codeEntry_outside hk, fun _ => rfl,
    fun k hk => exec_codeRd_of_ge (s := s.encoded) h (.inl (BitVec.le_def.2 (by rwa [hNcodes])))⟩

/-- Settles O39: `DATUM.ENC` reads no field it writes, so the second run stores the same codes. -/
theorem datumEncIsIdempotent : Obligations.DatumEncIsIdempotent := by
  intro s h hTotal hGroups
  refine ⟨s.encoded, s.encoded.encoded, s.datumResponse, exec_datumEnc_of_bounds h hTotal hGroups,
    exec_datumEnc_of_bounds (s := s.encoded) h hTotal hGroups, rfl, fun k => ?_, rfl, rfl⟩
  by_cases hk : k < s.credential.codes.length
  · rw [State.encoded_codeEntry_inside (s := s.encoded) hk, State.encoded_codeEntry_inside hk]
    rfl
  · exact State.encoded_codeEntry_outside (s := s.encoded) (Nat.not_lt.1 hk)

theorem State.setHidden_credential (s : State) :
    (s.setHidden 0).credential = { s.credential with hidden := false } ∧
      (s.setHidden 1).credential = { s.credential with hidden := true } := ⟨rfl, rfl⟩

theorem Credential.values_of_hidden (c : Credential) :
    Credential.values { c with hidden := true } = Credential.values { c with hidden := false } ++ c.ssid :=
  congrArg (· ++ c.ssid) (List.append_nil _).symm

/-- The codes with the SSID hidden are those without it, followed by those of the SSID's groups (R93). -/
theorem Credential.codes_of_hidden (c : Credential) :
    ∃ rest, Credential.codes { c with hidden := true } = Credential.codes { c with hidden := false } ++ rest := by
  rw [Credential.codes, Credential.codes, c.values_of_hidden, pairCodes_flatFrom_append]
  exact ⟨_, rfl⟩

/-- `totalLen` and `totalXor` as `DATUM.ENC` responds them do not depend on the flag (R91, R95). -/
theorem State.setHidden_datumResponse (s : State) (flag : BitVec 1) :
    (s.setHidden flag).datumResponse.extractLsb' 16 32 =
      0#16 ++ BitVec.ofNat 8 s.declaredTotal ++ s.credential.totalXor := by
  obtain ⟨-, -, -, -, -, hPayload⟩ := datumData_fields (BitVec.ofNat 8 s.declaredTotal) s.credential.totalXor
    (BitVec.ofNat 9 (3 * (s.setHidden flag).declaredGroups))
  exact hPayload

/-- Settles O40: the hidden SSID's groups come after all others, and the response's other fields do not test the flag. -/
theorem hiddenFlagOnlyAppendsGroups : Obligations.HiddenFlagOnlyAppendsGroups := by
  intro s h hTotal hGroups
  have hCount : (s.setHidden 1).declaredGroups = (s.setHidden 0).declaredGroups + s.ssidlen.toNat := rfl
  have hGroups₁ : (s.setHidden 1).declaredGroups ≤ 128 := hGroups
  have hGroups₀ : (s.setHidden 0).declaredGroups ≤ 128 := by omega
  refine ⟨(s.setHidden 0).encoded, (s.setHidden 1).encoded, _, _,
    exec_datumEnc_of_bounds (s := s.setHidden 0) h hTotal hGroups₀,
    exec_datumEnc_of_bounds (s := s.setHidden 1) h hTotal hGroups₁, rfl, rfl,
    (s.setHidden_datumResponse 0).trans (s.setHidden_datumResponse 1).symm, ?_, fun k hk => ?_⟩
  · rw [State.encoded_ncodes_toNat hGroups₁, State.encoded_ncodes_toNat hGroups₀, hCount, Nat.mul_add]
  · obtain ⟨rest, hCodes⟩ := s.credential.codes_of_hidden
    obtain ⟨hFalse, hTrue⟩ := s.setHidden_credential
    rw [← hFalse, ← hTrue] at hCodes
    rw [State.encoded_ncodes_toNat hGroups₀, ← State.credential_codes_length] at hk
    rw [State.encoded_codeEntry_inside hk, State.encoded_codeEntry_inside (by rw [hCodes, List.length_append]; omega)]
    simp only [hCodes, List.getElem_append_left hk]

/-! ### `CRED.WR` and `CRED.RD` -/

/-- The storage of the map, by the address as a word (R32). -/
theorem isCredStorage_toNat_iff (a : BitVec 10) :
    isCredStorage a.toNat = true ↔ a ≤ 0x005 ∨ (0x008 ≤ a ∧ a ≤ 0x00B) ∨ (0x100 ≤ a ∧ a ≤ 0x2FF) := by
  simp [isCredStorage, BitVec.le_def, or_assoc]

/-- The map of R32 as the claims write it. -/
theorem credPlace_eq (a : BitVec 10) :
    credPlace a =
      if a ≤ 0x005 ∨ (0x008 ≤ a ∧ a ≤ 0x00B) ∨ (0x100 ≤ a ∧ a ≤ 0x2FF) then .storage a.toNat
      else if a = 0x010 then .pwdlen
      else if a = 0x011 then .ssidlen
      else if a = 0x012 then .hidden
      else .reserved := by
  simp only [credPlace, isCredStorage_toNat_iff]

/-- Settles O44: one write for each place of the map, the fault entry where there is none. -/
theorem credWrWritesAddressedPlace : Obligations.CredWrWritesAddressedPlace := by
  refine ⟨fun _ _ => rfl, fun s a b h => ?_⟩
  rw [execCredWr_running h, credPlace_eq, ← BitVec.setWidth_eq_extractLsb' (by decide)]
  split_ifs <;> rfl

/-- Settles O46: one response for each place of the map, the fault entry where there is none. -/
theorem credRdReadsAddressedPlace : Obligations.CredRdReadsAddressedPlace := by
  refine ⟨fun _ => rfl, fun s a h => ?_⟩
  rw [execCredRd_running h, credPlace_eq]
  split_ifs <;> rfl

/-! ### `CODE.RD` and `CODE.CNT` -/

/-- In a legal code store every valid entry is a code of a group: in range, and determined by the index where it is the
middle one (R98). -/
theorem State.codesLegal.entry {s : State} (hs : s.codesLegal) {k : BitVec 9} (hk : k < s.ncodes) :
    k.toNat < 384 ∧ 40 ≤ (s.codeEntry k.toNat).toNat ∧ (s.codeEntry k.toNat).toNat ≤ 423 ∧
      (k.toNat % 3 = 1 → (s.codeEntry k.toNat).toNat = 296 + k.toNat / 3) := by
  obtain ⟨n, hNcodes, -, hMax, -, hRange⟩ := hs
  have hk : k.toNat < 3 * n := hNcodes ▸ BitVec.lt_def.1 hk
  obtain ⟨hFirst, hMiddle, hLast⟩ := hRange (k.toNat / 3) (by omega)
  have hPlace : k.toNat = 3 * (k.toNat / 3) ∨ k.toNat = 3 * (k.toNat / 3) + 1 ∨ k.toNat = 3 * (k.toNat / 3) + 2 := by
    omega
  rcases hPlace with hPlace | hPlace | hPlace
  · rw [← hPlace] at hFirst; omega
  · rw [← hPlace] at hMiddle; omega
  · rw [← hPlace] at hLast; omega

/-- Settles O48: the two sides of the range test, and the range of a group's codes. -/
theorem codeRdReadsValidEntry : Obligations.CodeRdReadsValidEntry := by
  refine ⟨fun _ => rfl, fun _ _ => exec_codeRd_of_lt, fun _ _ => exec_codeRd_of_ge, fun s k hs hk => ?_⟩
  obtain ⟨-, hMin, hMax, -⟩ := hs.entry hk
  exact ⟨hMin, hMax⟩

/-- Settles O49: the response is the entry, which keeps its value in 48 bits. -/
theorem codeRdRespondsLegalCode : Obligations.CodeRdRespondsLegalCode := by
  intro s k hs h hk
  obtain ⟨hIndex, hEntry⟩ := hs.entry hk
  refine ⟨_, exec_codeRd_of_lt h hk hIndex, ?_⟩
  rwa [BitVec.toNat_setWidth_of_le (by decide)]

/-- Settles O50: three codes for each of 9 to 128 groups. -/
theorem codeCntRespondsNcodes : Obligations.CodeCntRespondsNcodes := by
  refine ⟨rfl, fun _ => execCodeCnt_running, rfl, fun s h hTotal hGroups => ?_, fun s hs => ?_⟩
  · have hMin := s.credential.nine_le_groupCount
    rw [s.credential_groupCount] at hMin
    refine ⟨s.encoded, exec_datumEnc_of_bounds h hTotal hGroups, h, ?_⟩
    rw [State.encoded_ncodes_toNat hGroups]
    omega
  · obtain ⟨n, hNcodes, hNone, hMax, -⟩ := hs
    rcases hNone with rfl | hMin
    · exact .inl (BitVec.eq_of_toNat_eq hNcodes)
    · exact .inr (by omega)

end Sys2Proof.Machine
end

section
/-! The proofs of the statements about the materializer: the datagram `MAT.GEN` emits, and the form every step keeps the
output history in. -/

namespace Sys2Proof.Machine

/-- R120: no other byte than `FILL`. -/
theorem eq_fill_of_mem_materialize {c : Code} {b : Byte} (hb : b ∈ materialize c) : b = Config.fill :=
  List.eq_of_mem_replicate hb

/-- Every answer keeps the output history legal: the one datagram an answer may add is the materializer's (R19, R120). -/
theorem Answered.outputLegal {s t : State} {o : Option Instr} (hs : s.outputLegal) (h : Answered s o t) :
    t.outputLegal := by
  intro d hd
  rcases h.out_cases with hOut | ⟨c, -, -, hOut⟩ <;> rw [hOut] at hd
  · exact hs d hd
  · rcases List.mem_append.1 hd with hOld | hNew
    · exact hs d hOld
    · exact ⟨c, List.mem_singleton.1 hNew⟩

/-- Settles O17: a reset empties `OUT`, and every answer keeps the output history legal. -/
theorem stepKeepsOutputLegal : Obligations.StepKeepsOutputLegal := fun _ _ hs ht =>
  step_keeps (P := State.outputLegal) (fun _ _ h => h) (fun _ => List.forall_mem_nil _)
    (fun _ _ _ => Answered.outputLegal) hs ht

/-- Settles O51: the datagram is `materialize c`. -/
theorem matGenEmitsOneDatagram : Obligations.MatGenEmitsOneDatagram :=
  ⟨fun _ => rfl, fun _ c h => ⟨materialize c, execMatGen_running h c, materialize_length c,
    fun _ => eq_fill_of_mem_materialize⟩⟩

end Sys2Proof.Machine
end

section
/-! The proofs of the statements about the errors: which values `ERR` can hold, what a halted block does, and which
operation raises which error. -/

namespace Sys2Proof.Machine

/-! ### The values of `ERR` -/

/-- The block raises every error but `MalformedAddress` (R162). -/
theorem State.raise_errLegal (s : State) {e : Error} (he : e ≠ .malformedAddress) : (s.raise e).errLegal := by
  cases e with
  | malformedAddress => exact absurd rfl he
  | _ => simp [State.errLegal, Error.code]

/-- Every answer keeps `ERR` legal: a halted block keeps it as it is, and no operation writes it but by raising an
error. -/
theorem Answered.errLegal {s t : State} {o : Option Instr} (hs : s.errLegal) (h : Answered s o t) : t.errLegal := by
  cases h with
  | halted => exact hs
  | raised _ e he => exact s.raise_errLegal he
  | completed h hw => exact .inl (hw.err_eq.trans h)

/-- Settles O14: `ERR` is 0 after reset, and every answer keeps it legal. -/
theorem stepKeepsErrLegal : Obligations.StepKeepsErrLegal := fun _ _ hs ht =>
  step_keeps (P := State.errLegal) (fun _ _ h => h) (fun _ => .inl rfl) (fun _ _ _ => Answered.errLegal) hs ht

/-! ### The halted block and the waiting block -/

/-- A run is good exactly where `ERR` is 0 at its end (R187). -/
theorem State.runEnd_eq_good_iff (s : State) : s.runEnd = .good ↔ s.err = 0 := by
  rw [← State.halted_eq_false_iff, State.runEnd]
  cases s.halted <;> simp

/-- A halted block "is never a final state that satisfies a postcondition" (R167). -/
theorem State.not_meets_of_halted {s : State} (h : s.err ≠ 0) (post : State → Prop) : ¬ s.meets post :=
  fun ⟨hGood, _⟩ => h (s.runEnd_eq_good_iff.1 hGood)

/-- Settles O8: the halted answer changes the responses alone, so the state it leaves is halted too. -/
theorem haltedBlockPerformsNothing : Obligations.HaltedBlockPerformsNothing :=
  ⟨fun _ _ _ h hi => ⟨step_of_halted h hi, State.not_meets_of_halted h⟩, fun _ i h => exec_halted h i⟩

/-- Settles O9: there is no oldest input to take. -/
theorem blockWaitsWithoutInput : Obligations.BlockWaitsWithoutInput := by
  intro s hi
  have hNext : nextInput s = none := by rw [nextInput, hi]
  rw [step, hNext]
  rfl

/-! ### The errors of `DATUM.ENC` -/

/-- The test of `totalLen` comes first (R102, R163). -/
theorem exec_datumEnc_of_long {s : State} (h : s.err = 0) (hTotal : 255 < s.declaredTotal) :
    exec .datumEnc s = .next (s.raise .valueOutOfRange) := by
  rw [execDatumEnc_running h, s.credential_totalLen, if_pos hTotal]

/-- The test of the group count comes second (R102, R161). -/
theorem exec_datumEnc_of_many {s : State} (h : s.err = 0) (hTotal : s.declaredTotal ≤ 255)
    (hGroups : 128 < s.declaredGroups) : exec .datumEnc s = .next (s.raise .indexOutOfRange) := by
  have hGroups' : Config.groupsMax < s.declaredGroups := hGroups
  rw [execDatumEnc_running h, s.credential_totalLen, if_neg (Nat.not_lt.2 hTotal), s.credential_groupCount,
    if_pos hGroups']

/-- Settles O37: each side of the two tests. -/
theorem datumEncFaultsExactlyOnLengths : Obligations.DatumEncFaultsExactlyOnLengths := fun s h =>
  ⟨exec_datumEnc_of_long h, exec_datumEnc_of_many h,
    fun hTotal hGroups => ⟨s.encoded, exec_datumEnc_of_bounds h hTotal hGroups, h⟩⟩

/-! ### `ERR` after each operation -/

/-- `ERR` after an operation in a running block (R161, R163, R165; `exec_err`). -/
def State.errAfter (s : State) : Instr → ErrCode
  | .dcEnc _ x => if x.toNat ≤ 127 then 0 else 1
  | .credWr a _ | .credRd a => if credPlace a = .reserved then 5 else 0
  | .datumEnc => if 255 < s.declaredTotal then 3 else if 128 < s.declaredGroups then 1 else 0
  | .codeRd k => if s.ncodes ≤ k ∨ 384 ≤ k.toNat then 5 else 0
  | .crcRst | .crcUpd _ | .crcGet | .crcLut _ | .codeCnt | .matGen _ => 0

theorem exec_datumEnc_err {s : State} (h : s.err = 0) :
    ∃ t, exec .datumEnc s = .next t ∧ t.err = s.errAfter .datumEnc := by
  rw [State.errAfter]
  split_ifs with hTotal hGroups
  · exact ⟨_, exec_datumEnc_of_long h hTotal, rfl⟩
  · exact ⟨_, exec_datumEnc_of_many h (Nat.not_lt.1 hTotal) hGroups, rfl⟩
  · exact ⟨_, exec_datumEnc_of_bounds h (Nat.not_lt.1 hTotal) (Nat.not_lt.1 hGroups), h⟩

/-- A running block answers every operation, and leaves `ERR` as `errAfter` says. -/
theorem exec_err {s : State} (h : s.err = 0) (i : Instr) : ∃ t, exec i s = .next t ∧ t.err = s.errAfter i := by
  cases i with
  | crcRst => exact ⟨_, execCrcRst_running h, h⟩
  | crcUpd b => exact ⟨_, execCrcUpd_running h b, h⟩
  | crcGet => exact ⟨_, execCrcGet_running h, h⟩
  | crcLut n => exact ⟨_, execCrcLut_running h n, h⟩
  | dcEnc v x =>
    refine ⟨_, execDcEnc_running h v x, ?_⟩
    rw [State.errAfter]
    split_ifs
    · exact h
    · rfl
  | credWr a b =>
    refine ⟨_, execCredWr_running h a b, ?_⟩
    rw [State.errAfter]
    cases credPlace a <;> simp [h, Error.code]
  | credRd a =>
    refine ⟨_, execCredRd_running h a, ?_⟩
    rw [State.errAfter]
    cases credPlace a <;> simp [h, Error.code]
  | datumEnc => exact exec_datumEnc_err h
  | codeRd k =>
    rw [State.errAfter]
    split_ifs with hk
    · exact ⟨_, exec_codeRd_of_ge h hk, rfl⟩
    · obtain ⟨hCount, hIndex⟩ := not_or.1 hk
      exact ⟨_, exec_codeRd_of_lt h (BitVec.not_le.1 hCount) (Nat.not_le.1 hIndex), h⟩
  | codeCnt => exact ⟨_, execCodeCnt_running h, h⟩
  | matGen c => exact ⟨_, execMatGen_running h c, h⟩

/-- Settles O43: `errAfter` names no other value than those R170 lets it depend on. -/
theorem errorsDependOnNamedValuesOnly : Obligations.ErrorsDependOnNamedValuesOnly := by
  refine ⟨fun s i h hi => ?_, fun s v w x h => ?_, fun s r hs hr hPwdlen hSsidlen hHidden => ?_⟩
  · obtain ⟨t, ht, hErr⟩ := exec_err h i
    refine ⟨t, ht, hErr.trans ?_⟩
    rcases hi with rfl | rfl | rfl | ⟨_, rfl⟩ | ⟨_, rfl⟩ | ⟨_, rfl⟩ <;> rfl
  · obtain ⟨t, ht, hErr⟩ := exec_err h (.dcEnc v x)
    obtain ⟨u, hu, hErr'⟩ := exec_err h (.dcEnc w x)
    exact ⟨t, u, ht, hu, hErr.trans hErr'.symm⟩
  · obtain ⟨t, ht, hErr⟩ := exec_err hs .datumEnc
    obtain ⟨u, hu, hErr'⟩ := exec_err hr .datumEnc
    have hTotal : s.declaredTotal = r.declaredTotal := by
      rw [State.declaredTotal, hPwdlen, hSsidlen, State.declaredTotal]
    have hGroups : s.declaredGroups = r.declaredGroups := by
      rw [State.declaredGroups, hPwdlen, hSsidlen, hHidden, State.declaredGroups]
    refine ⟨t, u, ht, hu, ?_⟩
    rw [hErr, hErr', State.errAfter, State.errAfter, hTotal, hGroups]

/-- Settles O56: the codes `errAfter` gives, one operation at a time. -/
theorem raisedErrorsByOperation : Obligations.RaisedErrorsByOperation := by
  intro i s t h ht
  obtain ⟨u, hu, hErr⟩ := exec_err h i
  obtain rfl := Host.Outcome.next.inj (hu.symm.trans ht)
  rw [hErr]
  cases i with
  | dcEnc v x =>
    by_cases hx : x.toNat ≤ 127
    · simp [State.errAfter, hx]
    · simp [State.errAfter, hx, Nat.not_le.1 hx]
  | credWr a b => by_cases ha : credPlace a = .reserved <;> simp [State.errAfter, ha]
  | credRd a => by_cases ha : credPlace a = .reserved <;> simp [State.errAfter, ha]
  | datumEnc =>
    by_cases hTotal : 255 < s.declaredTotal
    · simp [State.errAfter, hTotal]
    · by_cases hGroups : 128 < s.declaredGroups <;> simp [State.errAfter, hTotal, hGroups, Nat.not_lt.1 hTotal]
  | codeRd k => by_cases hk : s.ncodes ≤ k ∨ 384 ≤ k.toNat <;> simp [State.errAfter, hk]
  | _ => simp [State.errAfter]

end Sys2Proof.Machine
end

section
/-! The proof of the statement about the end of a run: what a sequence of requests leaves, and what every step keeps a run
keeps. -/

namespace Sys2Proof.Machine

/-- Every step answers a next state: the block waits, resets or answers the oldest request. -/
theorem step_answers_next (s : State) : ∃ t, step s = .next t := by
  rcases step_cases s with
    ⟨_, e⟩ | ⟨_, _, _, e⟩ | ⟨_, _, _, hi, _, _⟩ | ⟨_, _, _, _, _, e⟩
  · exact ⟨_, e⟩
  · exact ⟨_, e⟩
  · obtain ⟨t, _, ht, _⟩ := step_request_answered hi
    exact ⟨t, ht⟩
  · exact ⟨_, e⟩

/-- What every step keeps, a run of any number of steps keeps. -/
theorem run_keeps {P : State → Prop} (hStep : ∀ s t, P s → step s = .next t → P t) {n : Nat} {s t : State} (hs : P s)
    (ht : Sys2Proof.core.run n s = .next t) : P t := by
  induction n generalizing s with
  | zero => exact Host.Outcome.next.inj ((run_zero s).symm.trans ht) ▸ hs
  | succ n ih =>
    obtain ⟨u, hFirst⟩ := step_answers_next s
    exact ih (hStep s u hs hFirst) ((run_next n hFirst).symm.trans ht)

/-- A run takes one step per request, and each of them adds one response (R185, R189). -/
theorem run_requests {reqs : List Word} {s : State} {rest : List HostInput}
    (hi : s.input = reqs.map HostInput.request ++ rest) :
    ∃ t, Sys2Proof.core.run reqs.length s = .next t ∧ t.input = rest ∧
      t.rsps.length = s.rsps.length + reqs.length := by
  induction reqs generalizing s with
  | nil => exact ⟨s, run_zero s, hi, rfl⟩
  | cons req reqs ih =>
    obtain ⟨u, _, hStep, hInput, hRsps, -⟩ := oneResponsePerRequest s req _ hi
    obtain ⟨t, hRun, hEnd, hLength⟩ := ih hInput
    refine ⟨t, (run_next reqs.length hStep).trans hRun, hEnd, ?_⟩
    rw [hLength, hRsps, List.length_append, List.length_singleton, List.length_cons, Nat.add_right_comm, Nat.add_assoc]

/-- In a legal history `ERR` is 0 exactly where every response is a success (R17, R46). -/
theorem State.historyLegal.err_eq_zero_iff {s : State} (hs : s.historyLegal) :
    s.err = 0 ↔ ∀ r ∈ s.rsps, r.err = 0 := by
  refine ⟨fun h => (State.historyLegal_iff_of_running h).1 hs, fun hSuccess => ?_⟩
  obtain ⟨done, refused, hRsps, -, hRefused, hEmpty⟩ := hs
  cases refused with
  | nil => exact hEmpty.2 rfl
  | cons r refused =>
    have hr : r = ⟨s.err, 0⟩ := hRefused r (by simp)
    have := hSuccess r (by simp [hRsps])
    rwa [hr] at this

/-- Settles O20: one response for each request, and a history that stays legal from reset on. -/
theorem runAnswersEveryRequest : Obligations.RunAnswersEveryRequest := by
  intro reqs
  obtain ⟨t, hRun, hInput, hLength⟩ :=
    run_requests (s := State.reset.withRequests reqs) (rest := []) (List.append_nil _).symm
  obtain ⟨-, -, -, hReset, -⟩ := resetMeetsEveryInvariant
  have hLegal : t.historyLegal := run_keeps stepKeepsHistoryLegal (s := State.reset.withRequests reqs) hReset hRun
  exact ⟨t, hRun, hInput, hLength.trans (Nat.zero_add _),
    t.runEnd_eq_good_iff.trans hLegal.err_eq_zero_iff⟩

end Sys2Proof.Machine
end

section
/-! The proof of the statement about a reset input. -/

namespace Sys2Proof.Machine

/-- A reset input is taken, and the operation it abandons does not show in the next state (R180). -/
theorem step_of_reset {s : State} {abandoned : Option Word} {rest : List HostInput}
    (hi : s.input = .reset abandoned :: rest) : step s = .next (s.withInput rest).afterReset := by
  have hNext : nextInput s = some (.reset abandoned, s.withInput rest) := by rw [nextInput, hi]
  rw [step, hNext]
  rfl

/-- Settles O10: the next state is `afterReset` of the state with the input taken, whose fields are R22's. -/
theorem resetInputLeavesResetState : Obligations.ResetInputLeavesResetState := fun s _ rest hi =>
  ⟨_, step_of_reset hi, State.afterReset_run _, State.afterReset_pwdlen _, State.afterReset_ssidlen _,
    State.afterReset_hidden _, State.afterReset_ncodes _, State.afterReset_err _, State.afterReset_out _,
    State.afterReset_rsps _, State.afterReset_input _, (s.withInput rest).afterReset_credByte⟩

end Sys2Proof.Machine
end
